-- ==== Sys2Proof/Word.lean ====
section
/-!
DEFINITION. The word types of the block: a byte (the unit of the bus), a 32-bit unsigned word (the width
of the value a RegisterFrame carries, R8, R60), and the RegisterFrame itself. A value the source types as
`double` is a rational number in this spec (R9); it is written `Rat` in every file.
-/

namespace Sys2Proof

/-- A byte value `0 … 255` (R46). -/
abbrev Byte := BitVec 8

/-- `u32`: an unsigned 32-bit value; the block has no signed integer type (R8). -/
abbrev Word := BitVec 32

/-- RegisterFrame: exactly four bytes, `f0` first on the bus (R8, R60 a). -/
structure Frame where
  f0 : Byte
  f1 : Byte
  f2 : Byte
  f3 : Byte
  deriving DecidableEq, Repr, Inhabited

end Sys2Proof
end

