-- ==== Sys2Proof/Syntax.lean ====
section
/-!
DEFINITION. Syntax: the instructions (one constructor per row of spec/opcode_table.json), the two forms in
which one is presented (a host operation word, R65; a bus transaction written as its bytes, R64), the answer
types of the four bus primitives (R44), the failure causes (R141), and the pseudo-operation FREEZE (R72).
-/

namespace Sys2Proof

/-- The instructions. The first ten are the host operations of R66 with their typed operands (R67); the last
three are the bus transactions of R63 that have a row in the table. A `Num` operand is its 64-bit pattern. -/
inductive Instr where
  /-- DEC, R81; the operand is a frame image (R67 b). -/
  | dec (image : Word)
  /-- ENC, R82. -/
  | enc (v : Word)
  /-- GETCW, R90. -/
  | getcw
  /-- RDCW, R93. -/
  | rdcw
  /-- WRCW, R94. -/
  | wrcw (v : Word)
  /-- STEER, R102: bias in milliseconds and the two gains, each a binary64 pattern (R67 c). -/
  | steer (b pk ik : BitVec 64)
  /-- SAVE, R130. -/
  | save
  /-- INIT, R132. -/
  | init
  /-- SETMAX, R100: the rate limit in parts per billion, a binary64 pattern (R67 c). -/
  | setmax (x : BitVec 64)
  /-- RSTI, R101. -/
  | rsti
  /-- The bus transaction RD_FC, R63: a read of four bytes at `0x41`. -/
  | rdFc
  /-- The bus transaction WR_DAC, R63: a write of the frame of `v` at `0xA0`. -/
  | wrDac (v : Word)
  /-- The bus transaction SAVE_FC, R63: the command `0xC2`. -/
  | saveFc
  deriving DecidableEq, Repr

/-- The pseudo-operation `FREEZE b`, which stands for `STEER b, 0, 0` (R72). -/
def Instr.freeze (b : BitVec 64) : Instr := .steer b 0#64 0#64

/-- The host operation word: a 4-bit selector and three 64-bit operand registers (R65). -/
structure OpWord where
  op : BitVec 4
  arg0 : BitVec 64
  arg1 : BitVec 64
  arg2 : BitVec 64
  deriving DecidableEq, Repr

/-- How an instruction is presented: as a host operation word (R65), or as the address byte of a bus
transaction followed by the data bytes it sends (R64). -/
inductive Presented where
  | hostOp (w : OpWord)
  | bus (bytes : List Byte)
  deriving DecidableEq, Repr

/-- The answer to a ping, a write or a command (R44); `err` carries no detail. -/
inductive Ack where
  | ok
  | err
  deriving DecidableEq, Repr, Inhabited

/-- The answer to a read (R44): `err`, or a sequence of 0, 1, 2, 3 or 4 bytes. A longer answer is excluded
by this type, as R44 excludes it. -/
inductive ReadAnswer where
  | err
  | got0
  | got1 (b0 : Byte)
  | got2 (b0 b1 : Byte)
  | got3 (b0 b1 b2 : Byte)
  | got4 (f : Frame)
  deriving DecidableEq, Repr, Inhabited

/-- The three failure causes (R141). -/
inductive Cause where
  | busUnavailable
  | shortRead
  | outOfRange
  deriving DecidableEq, Repr

end Sys2Proof
end

