-- ==== Sys2Proof/Config.lean ====
section
/-!
DEFINITION. Config: the constants of the block as a configuration record (R6), the parameters the source
leaves to the implementation (R7: `rnd`, `ROUND_MODE`, the integrator's bounds), their values for this
hardware, and the free values: constants with no body, of which nothing can be proved.
-/

namespace Sys2Proof

/-- The modes `ROUND_MODE` can take (R10; 92_eei_decisions.md D4 names the other two). -/
inductive RoundMode where
  /-- nearest, a tie goes away from zero: the value for this hardware -/
  | tiesAway
  /-- nearest, a tie goes to the even neighbour -/
  | tiesToEven
  /-- toward zero -/
  | truncate
  deriving DecidableEq, Repr

/-- The configuration record of R6, with the open parameters of R7 a, b and c. -/
structure Config where
  /-- `MAX_CONTROL`, the largest legal control word -/
  maxControl : Nat
  /-- `R_LSB`, fractional frequency per control-word increment -/
  rLsb : Rat
  /-- `PPB`, one part per billion -/
  ppb : Rat
  /-- `MS_PER_S`, milliseconds per second -/
  msPerS : Rat
  /-- `SETPOINT`, the bias the loop steers to -/
  setpoint : Rat
  /-- `FRAME_BYTES` -/
  frameBytes : Nat
  /-- `FRAME_BITS` -/
  frameBits : Nat
  /-- `RA_READ_FC` -/
  raReadFc : Byte
  /-- `RA_WRITE_DAC` -/
  raWriteDac : Byte
  /-- `RA_SAVE_FC` -/
  raSaveFc : Byte
  /-- `DEV_ADDR`, a 7-bit label of the device; no rule depends on it (U16) -/
  devAddr : BitVec 7
  /-- `INTEG_LO`, the lower bound of the integrator (R7 c) -/
  integLo : Rat
  /-- `INTEG_HI`, the upper bound of the integrator (R7 c) -/
  integHi : Rat
  /-- `rnd`, applied to every marked arithmetic step (R9, R121) -/
  rnd : Rat → Rat
  /-- `ROUND_MODE` (R10) -/
  roundMode : RoundMode

/-- The values for this hardware (R6, R7), each the spec's own decision on a point its source leaves open: `rnd` is
the identity (D1, log 10), `ROUND_MODE` ties away from zero (D4, log 11), the bounds are `[0, MAX_CONTROL]` (D5,
log 12), the literals are the source's (D20, log 13). UNVERIFIED against a part, unsafe for a part with other
values. -/
def Config.hw : Config where
  maxControl := 1000000
  rLsb := 8 / 10000000000000
  ppb := 1 / 1000000000
  msPerS := 1000
  setpoint := 0
  frameBytes := 4
  frameBits := 32
  raReadFc := 0x41#8
  raWriteDac := 0xA0#8
  raSaveFc := 0xC2#8
  devAddr := 0x70#7
  integLo := 0
  integHi := 1000000
  rnd := fun q => q
  roundMode := .tiesAway

/-- FREE VALUE: the environment's answer to ping, write or command number `n` beyond the scripted answers
(R45, U12). Safe: any answer of the type (log 2). -/
opaque Config.freeAck : Nat → Ack

/-- FREE VALUE: the environment's answer to the read that is bus event number `n`, beyond the scripted
answers (R45, U12). Safe: any answer of the type (log 2). -/
opaque Config.freeRead : Nat → ReadAnswer

/-- FREE VALUE: `RES` after a failure and after an operation with no result (R68, U7). Safe (log 6). -/
opaque Config.freeRes : Nat → Word

/-- FREE VALUE: the content of `INTEG` after RSTI (R101, U11). Safe (log 6). -/
opaque Config.freeInteg : Nat → Rat

end Sys2Proof
end

