-- ==== Sys2Proof/WellFormed.lean ====
section
/-!
DEFINITION. WellFormed: which terms of `Instr` the hardware has. Every host operation takes every value of
its operands (R67, R82, R102; a pattern that denotes no number is a legal encoding which the operation
refuses). A WR_DAC carries the frame of a value that is at most `MAX_CONTROL` (R42, R63).
-/

namespace Sys2Proof

/-- The check on an instruction: only WR_DAC has one (R63). -/
def Instr.wf : Instr → Bool
  | .dec _ => true
  | .enc _ => true
  | .getcw => true
  | .rdcw => true
  | .wrcw _ => true
  | .steer _ _ _ => true
  | .save => true
  | .init => true
  | .setmax _ => true
  | .rsti => true
  | .rdFc => true
  | .wrDac v => decide (v.toNat ≤ Config.hw.maxControl)
  | .saveFc => true

end Sys2Proof
end

