-- ==== Sys2Proof/Decode.lean ====
section
/-!
DEFINITION. Decode: from a presented operation word or bus transaction to an instruction, or a rejection by
name; then the encoder, written from the same tables (R61 to R67); then the host's numbering of the opcode
table's bits.
-/

namespace Sys2Proof

/-- Frame encoding `be32`, most significant byte first (R61). -/
def be32 (v : Word) : Frame where
  f0 := v.extractLsb' 24 8
  f1 := v.extractLsb' 16 8
  f2 := v.extractLsb' 8 8
  f3 := v.extractLsb' 0 8

/-- Frame decoding `unbe32` (R62): `f[0] × 2^24 + f[1] × 2^16 + f[2] × 2^8 + f[3]`, unsigned, no scaling.
The constants stand on the left so that Lean's kernel never counts one down. -/
def unbe32 (f : Frame) : Word :=
  BitVec.ofNat 32 (16777216 * f.f0.toNat + 65536 * f.f1.toNat + 256 * f.f2.toNat + f.f3.toNat)

/-- Why a presented word is rejected. -/
inductive DecodeError where
  /-- selectors `0x0`, `0xA`, `0xC` to `0xF` name no operation (R69 d, U6) -/
  | unassignedSelector (op : BitVec 4)
  /-- the bytes are none of the bus transactions the block can form (R63, R69 g) -/
  | notABusTransaction (bytes : List Byte)
  deriving DecidableEq, Repr

/-- A `u32` operand or a frame image is `ARG0[31:0]`; `ARG0[63:32]` is ignored (R67 a, b). -/
def lowWord (arg : BitVec 64) : Word := arg.extractLsb' 0 32

/-- The selector table of R66. Every unassigned selector is rejected. -/
def decodeHost (w : OpWord) : Except DecodeError Instr :=
  match w.op.toNat with
  | 1 => .ok (.dec (lowWord w.arg0))
  | 2 => .ok (.enc (lowWord w.arg0))
  | 3 => .ok .getcw
  | 4 => .ok .rdcw
  | 5 => .ok (.wrcw (lowWord w.arg0))
  | 6 => .ok (.steer w.arg0 w.arg1 w.arg2)
  | 7 => .ok .save
  | 8 => .ok .init
  | 9 => .ok (.setmax w.arg0)
  | 11 => .ok .rsti
  | _ => .error (.unassignedSelector w.op)

/-- The bus transactions of R63, each written as its address byte and the data bytes it sends (R64). -/
def decodeBus (bytes : List Byte) : Except DecodeError Instr :=
  match bytes with
  | [a] =>
    if a = Config.hw.raReadFc then .ok .rdFc
    else if a = Config.hw.raSaveFc then .ok .saveFc
    else .error (.notABusTransaction bytes)
  | [a, f0, f1, f2, f3] =>
    if a = Config.hw.raWriteDac ∧ (unbe32 ⟨f0, f1, f2, f3⟩).toNat ≤ Config.hw.maxControl then
      .ok (.wrDac (unbe32 ⟨f0, f1, f2, f3⟩))
    else .error (.notABusTransaction bytes)
  | _ => .error (.notABusTransaction bytes)

/-- The decoder: total, a rejection has a name. -/
def decode : Presented → Except DecodeError Instr
  | .hostOp w => decodeHost w
  | .bus bytes => decodeBus bytes

/-- A `u32` or frame image as an operand register: zero-extended, since `ARG0[63:32]` is ignored. -/
def wideArg (v : Word) : BitVec 64 := v.setWidth 64

/-- The bytes of a WR_DAC: the address, then the frame (R63). -/
def wrDacBytes (f : Frame) : List Byte := [Config.hw.raWriteDac, f.f0, f.f1, f.f2, f.f3]

/-- The encoder (R61, R63, R66, R67). Operand registers an operation does not name are 0 (they are ignored). -/
def encode : Instr → Presented
  | .dec image => .hostOp ⟨0x1#4, wideArg image, 0#64, 0#64⟩
  | .enc v => .hostOp ⟨0x2#4, wideArg v, 0#64, 0#64⟩
  | .getcw => .hostOp ⟨0x3#4, 0#64, 0#64, 0#64⟩
  | .rdcw => .hostOp ⟨0x4#4, 0#64, 0#64, 0#64⟩
  | .wrcw v => .hostOp ⟨0x5#4, wideArg v, 0#64, 0#64⟩
  | .steer b pk ik => .hostOp ⟨0x6#4, b, pk, ik⟩
  | .save => .hostOp ⟨0x7#4, 0#64, 0#64, 0#64⟩
  | .init => .hostOp ⟨0x8#4, 0#64, 0#64, 0#64⟩
  | .setmax x => .hostOp ⟨0x9#4, x, 0#64, 0#64⟩
  | .rsti => .hostOp ⟨0xB#4, 0#64, 0#64, 0#64⟩
  | .rdFc => .bus [Config.hw.raReadFc]
  | .wrDac v => .bus (wrDacBytes (be32 v))
  | .saveFc => .bus [Config.hw.raSaveFc]

/-- Byte `i` of a number whose first byte is its least significant one. -/
def tableByte (w i : Nat) : Byte := BitVec.ofNat 8 (w / 256 ^ i)

/-- Bits `lo + 63 … lo` of a number, as an operand register. -/
def tableArg (w lo : Nat) : BitVec 64 := BitVec.ofNat 64 (w / 2 ^ lo)

/-- The presented form of an opcode-table row's bits (log 16). A row of at most 8 bits is a selector when its
bits 7 to 4 are zero (the register addresses `0x41`, `0xC2` have a non-zero high half), else an address byte.
A row of 40 bits is a bus transaction with data: its first byte is bits 7 to 0, or, when that byte is not
the address of a write, the number is read as the table's own bit string, whose first byte is bits 39 to
32. Any other length is a host operation word in the order of R60: `OP`, `ARG0`, `ARG1`, `ARG2`. -/
def tablePresented (nbits w : Nat) : Presented :=
  if nbits ≤ 8 then
    if w < 16 then .hostOp ⟨BitVec.ofNat 4 w, 0#64, 0#64, 0#64⟩ else .bus [tableByte w 0]
  else if nbits = 40 then
    if tableByte w 0 = Config.hw.raWriteDac then
      .bus [tableByte w 0, tableByte w 1, tableByte w 2, tableByte w 3, tableByte w 4]
    else
      .bus [tableByte w 4, tableByte w 3, tableByte w 2, tableByte w 1, tableByte w 0]
  else .hostOp ⟨BitVec.ofNat 4 w, tableArg w 4, tableArg w 68, tableArg w 132⟩

/-- The instruction the decoder reads from an opcode-table row's bits. -/
def decodeTableWord (nbits w : Nat) : Option Instr :=
  match decode (tablePresented nbits w) with
  | .ok i => some i
  | .error _ => none

end Sys2Proof
end

