-- ==== Sys2Proof/Machine/State.lean ====
section
/-!
DEFINITION. State: the six registers of R20, the outputs of R68, the bus trace of R14, and, as plain data the
step reads, the two other agents of R14: the host's pending requests and the environment. Faults, refusals,
and the state after reset.
-/

namespace Sys2Proof.Machine

/-- One event of the bus trace, with the answer it got (R14). -/
inductive BusEvent where
  /-- `Ping` -/
  | ping (a : Ack)
  /-- `Read(ra, n)` -/
  | read (ra : Byte) (n : Nat) (a : ReadAnswer)
  /-- `Write(ra, bytes)` -/
  | write (ra : Byte) (f : Frame) (a : Ack)
  /-- `Cmd(ra)` -/
  | cmd (ra : Byte) (a : Ack)
  deriving DecidableEq, Repr

/-- The environment (R14, R45). -/
inductive Environment where
  /-- The unconstrained oracle: the answers it will give to the next acknowledged primitives (ping, write,
  command) and to the next reads, oldest first; past the end of a list the answer to bus event number
  `count` is a free value of Config (log 2). -/
  | oracle (acks : List Ack) (reads : List ReadAnswer) (count : Nat)
  /-- The ideal device of R56: its control word and its saved word (log 3). -/
  | ideal (dac saved : Word)
  deriving DecidableEq, Repr

/-- What the host does next (R65, R160). -/
inductive Request where
  /-- present an instruction -/
  | present (p : Presented)
  /-- assert the reset input (R160) -/
  | reset
  deriving DecidableEq, Repr

/-- Why the machine stops with a fault. There is no such reason: the block reports a failure in `ST` and goes
on (R140), so this type has no constructor, nothing raises one, and that is exact (log 7). -/
inductive Fault where
  deriving DecidableEq, Repr

/-- Why an instruction has no meaning in a state: the refusals of R148 (which are this spec declining to say
what the hardware does, R13), the rejections of the decoder, and the host's own `notModelled`. Each is safe:
nothing is proved of a state after it. -/
inductive Refusal where
  /-- Raised by the arms of instructions with no meaning yet; none in this model. Safe. -/
  | notModelled (mnemonic : String)
  /-- CacheNeverWritten (U1, U2): raised by GETCW with `CWV = 0` (R90) and by STEER with `INTI = 0` and
  `CWV = 0` (R102). Safe (log 17). -/
  | cacheNeverWritten
  /-- RateLimitNeverWritten (U3): raised by STEER with `MAXV = 0` (R102). Safe (log 17). -/
  | rateLimitNeverWritten
  /-- OperandNotANumber (U4): raised by STEER and SETMAX on a pattern with exponent field 2047 (R69 e).
  Safe (log 17). -/
  | operandNotANumber
  /-- NegativeRateLimit (U5): raised by SETMAX of a negative number (R100). Safe (log 17). -/
  | negativeRateLimit
  /-- Raised by the fetch on a selector that names no operation (R69 d, U6). Safe (log 17). -/
  | unassignedSelector (op : BitVec 4)
  /-- Raised by the fetch on bytes that are no bus transaction of R63. Safe (log 9). -/
  | notABusTransaction (bytes : List Byte)
  /-- Raised by WR_DAC with data above `MAX_CONTROL`, which the block never sends (R42, R63). Safe (log 9). -/
  | writeDataAboveMaximum (v : Word)
  deriving DecidableEq, Repr

/-- The state of one block instance and of the agents around it. -/
structure State where
  /-- `CW`, the cached control word (R21) -/
  cw : Word
  /-- `CWV`, validity of `CW` (R22) -/
  cwv : Bool
  /-- `MAXCHG`, the rate limit in parts per billion (R23) -/
  maxchg : Rat
  /-- `MAXV`, validity of `MAXCHG` (R24) -/
  maxv : Bool
  /-- `INTEG`, the integrator in control-word units (R25) -/
  integ : Rat
  /-- `INTI`, the integrator-initialised flag (R26) -/
  inti : Bool
  /-- `ST`, status of the operation just finished (R68); an output, read by no operation -/
  st : BitVec 3
  /-- `RES`, result of the operation just finished (R68); an output, read by no operation -/
  res : Word
  /-- the bus trace, oldest event first (R14) -/
  trace : List BusEvent
  /-- what the host presents next, oldest first (R65; the model's own field, log 1) -/
  requests : List Request
  /-- the environment (R45; the model's own field, log 2) -/
  env : Environment
  /-- index of the next free value (the model's own field, log 6) -/
  tick : Nat
  deriving DecidableEq, Repr

/-- The machine right after power-on reset (R33, R160): the three flags are 0 and no bus event was issued.
DESIGN CHOICE, unsafe (log 4): `CW`, `MAXCHG`, `INTEG`, `ST` and `RES`, for which R33 gives no value, are 0.
DESIGN CHOICE: nothing is presented yet (log 1), the environment is the unconstrained one (log 2), the
counter is 0 (log 6). -/
def State.reset : State where
  cw := 0#32
  cwv := false
  maxchg := 0
  maxv := false
  integ := 0
  inti := false
  st := 0#3
  res := 0#32
  trace := []
  requests := []
  env := .oracle [] [] 0
  tick := 0

end Sys2Proof.Machine
end

