-- ==== Sys2Proof/Machine/Environment.lean ====
section
/-!
DEFINITION. Environment: how the environment answers each of the four bus primitives (R44). The oracle of R45
gives its scripted answers, then free values, and nothing it is sent constrains them. The ideal device is the
informative one of R56.
-/

namespace Sys2Proof.Machine

/-- The oracle's next acknowledgement (R45): the first scripted one, else a free value. -/
def drawAck (acks : List Ack) (count : Nat) : Ack :=
  match acks with
  | a :: _ => a
  | [] => Config.freeAck count

/-- The oracle's next read answer (R45): the first scripted one, else a free value. -/
def drawRead (reads : List ReadAnswer) (count : Nat) : ReadAnswer :=
  match reads with
  | a :: _ => a
  | [] => Config.freeRead count

/-- The answer to `BusPing()`, and the environment after it. -/
def answerPing (e : Environment) : Ack × Environment :=
  match e with
  | .oracle acks reads n => (drawAck acks n, .oracle acks.tail reads (n + 1))
  | .ideal dac saved => (.ok, .ideal dac saved)

/-- The answer to `MemRead(ra, 4)`, and the environment after it. -/
def answerRead (e : Environment) (ra : Byte) : ReadAnswer × Environment :=
  match e with
  | .oracle acks reads n => (drawRead reads n, .oracle acks reads.tail (n + 1))
  | .ideal dac saved =>
    if ra = Config.hw.raReadFc then (.got4 (be32 dac), .ideal dac saved) else (.err, .ideal dac saved)

/-- The answer to `MemWrite(ra, 4, f)`, and the environment after it. -/
def answerWrite (e : Environment) (ra : Byte) (f : Frame) : Ack × Environment :=
  match e with
  | .oracle acks reads n => (drawAck acks n, .oracle acks.tail reads (n + 1))
  | .ideal dac saved =>
    if ra = Config.hw.raWriteDac then (.ok, .ideal (unbe32 f) saved) else (.err, .ideal dac saved)

/-- The answer to `BusCmd(ra)`, and the environment after it. -/
def answerCmd (e : Environment) (ra : Byte) : Ack × Environment :=
  match e with
  | .oracle acks reads n => (drawAck acks n, .oracle acks.tail reads (n + 1))
  | .ideal dac saved =>
    if ra = Config.hw.raSaveFc then (.ok, .ideal dac dac) else (.err, .ideal dac saved)

end Sys2Proof.Machine
end

