-- ==== Sys2Proof/Machine/Flags.lean ====
section
/-!
DEFINITION. Flags: the status code of an outcome (R141), and the preconditions the one-bit flags `CWV`, `MAXV`,
`INTI` impose (R30, R90, R102). There are no arithmetic condition codes, and saturation leaves no flag (R30).
-/

namespace Sys2Proof.Machine

/-- `ST` for `Ok` (R141). -/
def statusOk : BitVec 3 := 0#3

/-- `ST` for `Fail(cause)` (R141). -/
def statusOf : Cause → BitVec 3
  | .busUnavailable => 1#3
  | .shortRead => 2#3
  | .outOfRange => 3#3

/-- What the flags forbid a STEER: R102's preconditions, "each a refusal and not a failure", in the order of its
pseudocode: `MAXV = 0`, `refuse(RateLimitNeverWritten)` (U3), then `INTI = 0` with `CWV = 0`,
`refuse(CacheNeverWritten)` (U2); R148 names both. -/
def steerBlocked (s : State) : Option Refusal :=
  if s.maxv = false then some .rateLimitNeverWritten
  else if s.inti = false ∧ s.cwv = false then some .cacheNeverWritten
  else none

end Sys2Proof.Machine
end

