-- ==== Sys2Proof/Machine/Ops.lean ====
section
/-!
DEFINITION. Ops: the named operations every meaning is built from. The four bus primitives (R44: one event of
the trace, one answer); COMMIT (R91); how an operation ends (R68), a failure included (R140, the block's only
exception mechanism, which has no return, R145); the frame checks of the codec (R81, R82); READREG (R92) and
the write path (R94).
-/

namespace Sys2Proof.Machine

/-- `BusPing()`: one event `Ping`, answered by the environment (R44). -/
def busPing (s : State) : Ack × State :=
  ((answerPing s.env).1,
    { s with env := (answerPing s.env).2, trace := s.trace ++ [.ping (answerPing s.env).1] })

/-- `MemRead(ra, 4)`: one event `Read(ra, 4)`, answered by the environment (R44). -/
def memRead (ra : Byte) (s : State) : ReadAnswer × State :=
  ((answerRead s.env ra).1,
    { s with
      env := (answerRead s.env ra).2
      trace := s.trace ++ [.read ra Config.hw.frameBytes (answerRead s.env ra).1] })

/-- `MemWrite(ra, 4, f)`: one event `Write(ra, f)`, answered by the environment (R44). -/
def memWrite (ra : Byte) (f : Frame) (s : State) : Ack × State :=
  ((answerWrite s.env ra f).1,
    { s with
      env := (answerWrite s.env ra f).2
      trace := s.trace ++ [.write ra f (answerWrite s.env ra f).1] })

/-- `BusCmd(ra)`: one event `Cmd(ra)`, answered by the environment (R44). -/
def busCmd (ra : Byte) (s : State) : Ack × State :=
  ((answerCmd s.env ra).1,
    { s with
      env := (answerCmd s.env ra).2
      trace := s.trace ++ [.cmd ra (answerCmd s.env ra).1] })

/-- COMMIT(v): `CW <- v; CWV <- 1`, and no other register (R91). -/
def commit (v : Word) (s : State) : State := { s with cw := v, cwv := true }

/-- The end `Ok(v)` of an operation: `ST = 0`, `RES = v` (R68). -/
def complete (v : Word) (s : State) : State :=
  { s with st := statusOk, res := v, tick := s.tick + 1 }

/-- The end `Ok` of an operation with no result: `ST = 0`, `RES` a free value (R66, R68, U7; log 6). -/
def completeNoValue (s : State) : State :=
  { s with st := statusOk, res := Config.freeRes s.tick, tick := s.tick + 1 }

/-- `raise Fail(cause)`: the operation ends, `ST` is the cause's code, `RES` is a free value (U7; log 6), every
register write made before stands, nothing else is recorded and the block is ready (R12, R140). -/
def raiseFail (c : Cause) (s : State) : State :=
  { s with st := statusOf c, res := Config.freeRes s.tick, tick := s.tick + 1 }

/-- `clampCW` on a `u32`: the lower bound needs no clamp, the operand is unsigned (R11, R82). -/
def clampCW (v : Word) : Word :=
  if v.toNat ≤ Config.hw.maxControl then v else BitVec.ofNat 32 Config.hw.maxControl

/-- The rule of DEC: a value above `MAX_CONTROL` is rejected, never clamped (R81). -/
def decodeFrame (f : Frame) : Except Cause Word :=
  if (unbe32 f).toNat ≤ Config.hw.maxControl then .ok (unbe32 f) else .error .outOfRange

/-- The rule of ENC: clamp, then emit (R82). -/
def encodeFrame (v : Word) : Frame := be32 (clampCW v)

/-- The classification of a read's answer, in the order of R92. -/
def classifyRead : ReadAnswer → Except Cause Word
  | .err => .error .busUnavailable
  | .got0 => .error .shortRead
  | .got1 _ => .error .shortRead
  | .got2 _ _ => .error .shortRead
  | .got3 _ _ _ => .error .shortRead
  | .got4 f => decodeFrame f

/-- READREG(): one read at `0x41`, classified; it commits nothing (R92). -/
def readReg (s : State) : Except Cause Word × State :=
  (classifyRead (memRead Config.hw.raReadFc s).1, (memRead Config.hw.raReadFc s).2)

/-- The end of an operation whose value is at hand and is not committed (DEC). -/
def finishValue (r : Except Cause Word) (s : State) : State :=
  match r with
  | .ok v => complete v s
  | .error c => raiseFail c s

/-- The end of a read path: commit and return the value, or fail with its cause and commit nothing
(R93, R130). -/
def finishRead (r : Except Cause Word) (s : State) : State :=
  match r with
  | .ok v => complete v (commit v s)
  | .error c => raiseFail c s

/-- The end of the write path: commit and return the word on `Ok`, `Fail(BusUnavailable)` on `Err` (R94). -/
def finishWrite (a : Ack) (w : Word) (s : State) : State :=
  match a with
  | .ok => complete w (commit w s)
  | .err => raiseFail .busUnavailable s

/-- The write path (R94, used unchanged by STEER, R111): clamp, one write at `0xA0`, commit on success. -/
def writePath (v : Word) (s : State) : State :=
  finishWrite (memWrite Config.hw.raWriteDac (be32 (clampCW v)) s).1 (clampCW v)
    (memWrite Config.hw.raWriteDac (be32 (clampCW v)) s).2

end Sys2Proof.Machine
end

