-- ==== Sys2Proof/Machine/Bus.lean ====
section
/-!
DEFINITION. Bus: the three bus transactions that have a row in the opcode table, each run alone (R63; log 8):
one event of the trace with its answer. A primitive writes no register and ends no host operation, so `ST`
and `RES` stay.
-/

namespace Sys2Proof.Machine

/-- RD_FC (R63): `MemRead(0x41, 4)`. -/
def execRdFc (s : State) : Host.Outcome State Fault Refusal :=
  .next (memRead Config.hw.raReadFc s).2

/-- WR_DAC (R63): `MemWrite(0xA0, 4, be32(v))`. The block never forms one with `v > MAX_CONTROL` (R42), and
such a term is refused (log 9). -/
def execWrDac (v : Word) (s : State) : Host.Outcome State Fault Refusal :=
  if v.toNat ≤ Config.hw.maxControl then .next (memWrite Config.hw.raWriteDac (be32 v) s).2
  else .refused (.writeDataAboveMaximum v)

/-- SAVE_FC (R63): `BusCmd(0xC2)`. -/
def execSaveFc (s : State) : Host.Outcome State Fault Refusal :=
  .next (busCmd Config.hw.raSaveFc s).2

end Sys2Proof.Machine
end

