-- ==== Sys2Proof/Machine/Operands.lean ====
section
/-!
DEFINITION. Operands: the operand and result formats of R67 and R68. A `u32` operand is a word as it stands
(the decoder takes `ARG0[31:0]`); a frame operand or result is a frame image; a `Num` operand is a binary64
pattern, PRESUMED by the spec from general knowledge (R67 c; log 19).
-/

namespace Sys2Proof.Machine

/-- The frame a frame image carries: `f[0]` in bits 31:24 … `f[3]` in bits 7:0 (R67 b). -/
def frameOfImage (image : Word) : Frame where
  f0 := image.extractLsb' 24 8
  f1 := image.extractLsb' 16 8
  f2 := image.extractLsb' 8 8
  f3 := image.extractLsb' 0 8

/-- The frame image of a frame; read as a number it is `unbe32` of the frame (R67 b). -/
def imageOfFrame (f : Frame) : Word := unbe32 f

/-- The sign bit `s = ARG[63]` (R67 c). -/
def numSign (p : BitVec 64) : Bool := p.getLsbD 63

/-- The exponent field `e = ARG[62:52]` (R67 c). -/
def numExponent (p : BitVec 64) : Nat := (p.extractLsb' 52 11).toNat

/-- The fraction field `m = ARG[51:0]` (R67 c). -/
def numFraction (p : BitVec 64) : Nat := (p.extractLsb' 0 52).toNat

/-- The integer that is scaled by a power of two: `m` when `e = 0`, else `2^52 + m` (R67 c). -/
def numSignificand (p : BitVec 64) : Nat :=
  if numExponent p = 0 then numFraction p else 2 ^ 52 + numFraction p

/-- `k × 2^(e − 1075)` for the exponent field `e ≥ 1`, with `e = 0` scaled as `e = 1` is: `2^(−1074)`. -/
def scaleBinary (k e : Nat) : Rat :=
  if k = 0 then 0
  else if 1075 ≤ e then ((k * 2 ^ (e - 1075) : Nat) : Rat) else mkRat k (2 ^ (1075 - max e 1))

/-- The rational a `Num` pattern denotes; `none` when the exponent field is 2047, which denotes no number
(R67 c). Both zeros denote 0. -/
def numOfBits (p : BitVec 64) : Option Rat :=
  if numExponent p = 2047 then none
  else if numSign p then some (-(scaleBinary (numSignificand p) (numExponent p)))
  else some (scaleBinary (numSignificand p) (numExponent p))

end Sys2Proof.Machine
end

