-- ==== Sys2Proof/Machine/Codec.lean ====
section
/-!
DEFINITION. Codec: DEC (R81) and ENC (R82). Pure: they read and write no register but the outputs and issue
no bus event (R80).
-/

namespace Sys2Proof.Machine

/-- DEC (R81): the frame of the image, range-checked; `Ok(v)` or `Fail(OutOfRange)`. -/
def execDec (image : Word) (s : State) : Host.Outcome State Fault Refusal :=
  .next (finishValue (decodeFrame (frameOfImage image)) s)

/-- ENC (R82): the frame image of the clamped value; it never fails. -/
def execEnc (v : Word) (s : State) : Host.Outcome State Fault Refusal :=
  .next (complete (imageOfFrame (encodeFrame v)) s)

end Sys2Proof.Machine
end

