-- ==== Sys2Proof/Machine/Persist.lean ====
section
/-!
DEFINITION. Persist: SAVE (R130) and INIT (R132).
-/

namespace Sys2Proof.Machine

/-- SAVE after its command was answered: on `Err`, `Fail(BusUnavailable)` and no read (R130, D13); on `Ok`, the
read path. -/
def saveAfterCmd (a : Ack) (s : State) : State :=
  match a with
  | .err => raiseFail .busUnavailable s
  | .ok => finishRead (readReg s).1 (readReg s).2

/-- SAVE (R130): the command `0xC2`, then at once the read, committed. -/
def execSave (s : State) : Host.Outcome State Fault Refusal :=
  .next (saveAfterCmd (busCmd Config.hw.raSaveFc s).1 (busCmd Config.hw.raSaveFc s).2)

/-- INIT's step 4 (R132): the first read's failure, else the second's, else commit the second value. -/
def finishInit (first second : Except Cause Word) (s : State) : State :=
  match first with
  | .error c1 => raiseFail c1 s
  | .ok _ =>
    match second with
    | .error c2 => raiseFail c2 s
    | .ok v2 => completeNoValue (commit v2 s)

/-- INIT after its ping was answered: on `Err`, `Fail(BusUnavailable)` and no read; on `Ok`, both reads, the
second issued also when the first failed (R132, D12). -/
def initAfterPing (a : Ack) (s : State) : State :=
  match a with
  | .err => raiseFail .busUnavailable s
  | .ok => finishInit (readReg s).1 (readReg (readReg s).2).1 (readReg (readReg s).2).2

/-- INIT (R132, R133): ping, then exactly two reads, of which the second is committed. -/
def execInit (s : State) : Host.Outcome State Fault Refusal :=
  .next (initAfterPing (busPing s).1 (busPing s).2)

end Sys2Proof.Machine
end

