-- ==== Sys2Proof/Machine/Numeric.lean ====
section
/-!
DEFINITION. Numeric: clamping (R11) and rounding a rational to an integer (R10) in each `ROUND_MODE`.
-/

namespace Sys2Proof.Machine

/-- `clamp(x, lo, hi) = min(max(x, lo), hi)` (R11), used on `ℚ` and on `ℤ`. -/
def clamp {α : Type} [LinearOrder α] (x lo hi : α) : α := min (max x lo) hi

/-- Nearest integer, ties away from zero: `sign(q) × floor(|q| + 1/2)` (R10). -/
def roundTiesAway (q : Rat) : Int :=
  if 0 ≤ q then (q + 1 / 2).floor else -((-q + 1 / 2).floor)

/-- Nearest integer, ties to even (a value of `ROUND_MODE` that D4 mentions; not this hardware's). -/
def roundTiesToEven (q : Rat) : Int :=
  if q - (q.floor : Rat) < 1 / 2 then q.floor
  else if 1 / 2 < q - (q.floor : Rat) then q.floor + 1
  else if q.floor % 2 = 0 then q.floor else q.floor + 1

/-- Toward zero (a value of `ROUND_MODE` that D4 mentions; not this hardware's). -/
def roundTowardZero (q : Rat) : Int := if 0 ≤ q then q.floor else -((-q).floor)

/-- `round` in the given mode (R10, `ROUND_MODE`). -/
def roundIn (mode : RoundMode) (q : Rat) : Int :=
  match mode with
  | .tiesAway => roundTiesAway q
  | .tiesToEven => roundTiesToEven q
  | .truncate => roundTowardZero q

end Sys2Proof.Machine
end

