-- ==== Sys2Proof/Machine/Steering.lean ====
section
/-!
DEFINITION. Steering: SETMAX (R100), RSTI (R101) and STEER (R102 to R112). The arithmetic of STEER is written once,
for every configuration, with the roundings `rnd` where R121 places them; the hardware's configuration has the
identity there (log 10).
-/

namespace Sys2Proof.Machine

/-- The intermediate values of one STEER, under the names of R102's pseudocode; `integ` is the integrator
after step 6, `sum` is what step 7 rounds. -/
structure SteerSteps where
  e : Rat
  req : Rat
  m : Rat
  reqc : Rat
  p : Rat
  dI : Rat
  integ : Rat
  sum : Rat
  n : Int
  w : Word

/-- Step 1, the error in seconds (R104, R121). -/
def steerError (c : Config) (b : Rat) : Rat := c.rnd (c.rnd (c.setpoint - b) / c.msPerS)

/-- Step 2, the required change in control-word units (R105, R121). -/
def steerRequired (c : Config) (b : Rat) : Rat := c.rnd (steerError c b / c.rnd c.rLsb)

/-- Step 3, the rate limit of this call in control-word units (R105, R121). -/
def steerLimit (c : Config) (maxchg : Rat) : Rat :=
  c.rnd (c.rnd (maxchg * c.rnd c.ppb) / c.rnd c.rLsb)

/-- Step 4, the rate-limited required change (R106). -/
def steerLimited (c : Config) (maxchg b : Rat) : Rat :=
  clamp (steerRequired c b) (-(steerLimit c maxchg)) (steerLimit c maxchg)

/-- Step 5, the proportional term (R107). -/
def steerP (c : Config) (maxchg b pk : Rat) : Rat := c.rnd (steerLimited c maxchg b * pk)

/-- Step 6, the integral step (R108). -/
def steerDI (c : Config) (maxchg b ik : Rat) : Rat := c.rnd (steerLimited c maxchg b * ik)

/-- Step 6, the integrator after its bounded addition (R108). -/
def steerInteg (c : Config) (maxchg integ b ik : Rat) : Rat :=
  clamp (c.rnd (integ + steerDI c maxchg b ik)) c.integLo c.integHi

/-- Saturation in the integers, before narrowing to 32 bits (R110). -/
def saturateCW (c : Config) (n : Int) : Word :=
  BitVec.ofNat 32 (clamp n 0 (c.maxControl : Int)).toNat

/-- Step 7, the value that is rounded (R109, R121). -/
def steerSum (c : Config) (maxchg integ b pk ik : Rat) : Rat :=
  c.rnd (steerP c maxchg b pk + steerInteg c maxchg integ b ik)

/-- Steps 1 to 7 of STEER: rate limit `maxchg`, integrator `integ` before the call, bias `b`, gains `pk`, `ik`. -/
def steerSteps (c : Config) (maxchg integ b pk ik : Rat) : SteerSteps where
  e := steerError c b
  req := steerRequired c b
  m := steerLimit c maxchg
  reqc := steerLimited c maxchg b
  p := steerP c maxchg b pk
  dI := steerDI c maxchg b ik
  integ := steerInteg c maxchg integ b ik
  sum := steerSum c maxchg integ b pk ik
  n := roundIn c.roundMode (steerSum c maxchg integ b pk ik)
  w := saturateCW c (roundIn c.roundMode (steerSum c maxchg integ b pk ik))

/-- Step 0, lazy seeding: `INTEG <- CW; INTI <- 1` if `INTI = 0` (R103). -/
def seed (s : State) : State :=
  if s.inti = true then s else { s with integ := (s.cw.toNat : Rat), inti := true }

/-- What STEER does once its preconditions hold and its operands are numbers (R102): seed, advance the
integrator (kept whatever the write answers, R112), then the write path on the saturated word (R111). -/
def steerRun (c : Config) (b pk ik : Rat) (s : State) : State :=
  writePath (steerSteps c (seed s).maxchg (seed s).integ b pk ik).w
    { seed s with integ := (steerSteps c (seed s).maxchg (seed s).integ b pk ik).integ }

/-- STEER with its operands as the numbers they denote, `none` for a pattern that denotes none (R102): the
three preconditions in the pseudocode's order, each a refusal (log 17), then the run. -/
def steerNumbers (c : Config) (b pk ik : Option Rat) (s : State) : Host.Outcome State Fault Refusal :=
  match steerBlocked s with
  | some r => .refused r
  | none =>
    match b, pk, ik with
    | some b, some pk, some ik => .next (steerRun c b pk ik s)
    | _, _, _ => .refused .operandNotANumber

/-- STEER (R102). -/
def execSteer (b pk ik : BitVec 64) (s : State) : Host.Outcome State Fault Refusal :=
  steerNumbers Config.hw (numOfBits b) (numOfBits pk) (numOfBits ik) s

/-- SETMAX with its operand as the number it denotes, `none` for a pattern that denotes none (R100):
`MAXCHG <- x; MAXV <- 1`; refused for no number (U4) and for a negative one (U5). -/
def setmaxNumber (x : Option Rat) (s : State) : Host.Outcome State Fault Refusal :=
  match x with
  | none => .refused .operandNotANumber
  | some q =>
    if q < 0 then .refused .negativeRateLimit
    else .next (completeNoValue { s with maxchg := q, maxv := true })

/-- SETMAX (R100). -/
def execSetmax (x : BitVec 64) (s : State) : Host.Outcome State Fault Refusal :=
  setmaxNumber (numOfBits x) s

/-- RSTI's register effect (R101): `INTI <- 0` and `INTEG` unspecified, a free value (log 6); nothing changes
when `INTI` is 0 already. -/
def unseed (s : State) : State :=
  if s.inti = true then { s with inti := false, integ := Config.freeInteg s.tick } else s

/-- RSTI (R101). -/
def execRsti (s : State) : Host.Outcome State Fault Refusal :=
  .next (completeNoValue (unseed s))

end Sys2Proof.Machine
end

