-- ==== Sys2Proof/Machine/Store.lean ====
section
/-!
DEFINITION. Store: GETCW (R90), RDCW (R93), WRCW (R94).
-/

namespace Sys2Proof.Machine

/-- GETCW (R90): the cached control word when `CWV = 1`; when `CWV = 0` the rule says "the operation is refused", and
its pseudocode `refuse(CacheNeverWritten)` (U1, R148). -/
def execGetcw (s : State) : Host.Outcome State Fault Refusal :=
  if s.cwv = true then .next (complete s.cw s) else .refused .cacheNeverWritten

/-- RDCW (R93): READREG, then COMMIT and return its value; a failure commits nothing. -/
def execRdcw (s : State) : Host.Outcome State Fault Refusal :=
  .next (finishRead (readReg s).1 (readReg s).2)

/-- WRCW (R94): the write path. -/
def execWrcw (v : Word) (s : State) : Host.Outcome State Fault Refusal :=
  .next (writePath v s)

end Sys2Proof.Machine
end

