-- ==== Sys2Proof/Machine/Dispatch.lean ====
section
/-!
DEFINITION. Dispatch: one arm per constructor of Instr, each one call of its meaning.
-/

namespace Sys2Proof.Machine

def exec (i : Instr) (s : State) : Host.Outcome State Fault Refusal :=
  match i with
  | .dec image => Sys2Proof.Machine.execDec image s
  | .enc v => Sys2Proof.Machine.execEnc v s
  | .getcw => Sys2Proof.Machine.execGetcw s
  | .rdcw => Sys2Proof.Machine.execRdcw s
  | .wrcw v => Sys2Proof.Machine.execWrcw v s
  | .steer b pk ik => Sys2Proof.Machine.execSteer b pk ik s
  | .save => Sys2Proof.Machine.execSave s
  | .init => Sys2Proof.Machine.execInit s
  | .setmax x => Sys2Proof.Machine.execSetmax x s
  | .rsti => Sys2Proof.Machine.execRsti s
  | .rdFc => Sys2Proof.Machine.execRdFc s
  | .wrDac v => Sys2Proof.Machine.execWrDac v s
  | .saveFc => Sys2Proof.Machine.execSaveFc s

end Sys2Proof.Machine
end

