-- ==== Sys2Proof/Machine/Fetch.lean ====
section
/-!
DEFINITION. Fetch: what stands in the place of an instruction fetch. The block has no program counter and
fetches nothing (R28); the host presents one operation, or asserts reset (R65, R160).
-/

namespace Sys2Proof.Machine

/-- The reset input (R160): the registers and outputs as `State.reset` has them (R33); no bus event is issued
and the environment, the trace, the host's further requests and the counter stay (log 5). -/
def applyReset (s : State) : State :=
  { s with
    cw := State.reset.cw
    cwv := State.reset.cwv
    maxchg := State.reset.maxchg
    maxv := State.reset.maxv
    integ := State.reset.integ
    inti := State.reset.inti
    st := State.reset.st
    res := State.reset.res }

/-- The refusal of a rejected word (R69 d, R63). -/
def refusalOf : DecodeError → Refusal
  | .unassignedSelector op => .unassignedSelector op
  | .notABusTransaction bytes => .notABusTransaction bytes

/-- The state with its oldest request taken: the block runs it to its end before the next (R28, R51). -/
def accept (s : State) : State := { s with requests := s.requests.tail }

/-- The state with a presentation placed before every other request. -/
def presentFirst (p : Presented) (s : State) : State :=
  { s with requests := .present p :: s.requests }

end Sys2Proof.Machine
end

