-- ==== Sys2Proof/Machine/Step.lean ====
section
/-!
DEFINITION. Step: the next request of the host, run as one atomic transition (R28).
-/

namespace Sys2Proof.Machine

/-- One step. Nothing presented: the block stands ready and nothing changes (log 1). Reset: R160. A presented
word: the decoded instruction's meaning, in the state with the request taken; a rejected word is refused by
its name. -/
def step (s : State) : Host.Outcome State Fault Refusal :=
  match s.requests with
  | [] => .next s
  | .reset :: _ => .next (applyReset (accept s))
  | .present p :: _ =>
    match decode p with
    | .ok i => exec i (accept s)
    | .error e => .refused (refusalOf e)

/-- `s` with the instruction of an opcode-table row's bits as its next request (log 1, log 16). -/
def State.withFetchWord (s : State) (nbits w : Nat) : State :=
  presentFirst (tablePresented nbits w) s

end Sys2Proof.Machine
end

