-- ==== Sys2Proof/Machine/Text.lean ====
section
/-!
DEFINITION. Text: the textual form of R71 (this spec's notation, D18), printed and read; the source's function
names as aliases of the mnemonics and FREEZE (R72); the bus events as 95_test_vectors.md section 0 writes them. A
text is a list of characters. A `Num` operand of a line is the exact decimal it is written as (R9), so a line is
read to an operation over rationals; no meaning of Instr uses this file.
-/

namespace Sys2Proof.Machine

/-- One hexadecimal digit, a capital letter above nine. -/
def hexDigit (n : Nat) : Char :=
  if n < 10 then Char.ofNat (48 + n) else Char.ofNat (55 + n)

/-- A byte as two hexadecimal digits (R71). -/
def byteText (b : Byte) : List Char := [hexDigit (b.toNat / 16), hexDigit (b.toNat % 16)]

/-- Byte texts separated by spaces. -/
def bytesText : List Byte → List Char
  | [] => ['-']
  | [b] => byteText b
  | b :: bs => byteText b ++ ' ' :: bytesText bs

/-- The bytes of a frame in bus order (R8). -/
def frameBytes (f : Frame) : List Byte := [f.f0, f.f1, f.f2, f.f3]

/-- A natural number in decimal. -/
def natText (n : Nat) : List Char := Nat.toDigits 10 n

/-- `k × 2^(−j)` with the common factors of two taken out: the reduced pair of numerator and exponent. -/
def reduceHalves (k : Nat) : Nat → Nat × Nat
  | 0 => (k, 0)
  | j + 1 => if k % 2 = 0 then reduceHalves (k / 2) j else (k, j + 1)

/-- `k × 2^(−j)` in decimal: a numeral, with an exponent when there is a fraction, since
`2^(−j) = 5^j × 10^(−j)`. -/
def fractionText (kj : Nat × Nat) : List Char :=
  if kj.2 = 0 then natText kj.1 else natText (kj.1 * 5 ^ kj.2) ++ 'e' :: '-' :: natText kj.2

/-- The exact decimal of `k × 2^(e − 1075)` (R71). -/
def scaledText (k e : Nat) : List Char :=
  if k = 0 then ['0']
  else if 1075 ≤ e then natText (k * 2 ^ (e - 1075))
  else fractionText (reduceHalves k (1075 - max e 1))

/-- A `Num` operand as a decimal numeral denoting exactly its value; a pattern that denotes no number has no
textual form (R71). -/
def numText (p : BitVec 64) : Option (List Char) :=
  if numExponent p = 2047 then none
  else if numSign p then some ('-' :: scaledText (numSignificand p) (numExponent p))
  else some (scaledText (numSignificand p) (numExponent p))

/-- The mnemonic of R66, in capitals, and of the bus transactions of R63. -/
def mnemonicText : Instr → List Char
  | .dec _ => ['D', 'E', 'C']
  | .enc _ => ['E', 'N', 'C']
  | .getcw => ['G', 'E', 'T', 'C', 'W']
  | .rdcw => ['R', 'D', 'C', 'W']
  | .wrcw _ => ['W', 'R', 'C', 'W']
  | .steer _ _ _ => ['S', 'T', 'E', 'E', 'R']
  | .save => ['S', 'A', 'V', 'E']
  | .init => ['I', 'N', 'I', 'T']
  | .setmax _ => ['S', 'E', 'T', 'M', 'A', 'X']
  | .rsti => ['R', 'S', 'T', 'I']
  | .rdFc => ['R', 'D', '_', 'F', 'C']
  | .wrDac _ => ['W', 'R', '_', 'D', 'A', 'C']
  | .saveFc => ['S', 'A', 'V', 'E', '_', 'F', 'C']

/-- The operands of an instruction as R71 writes them: a frame as four bytes, a `u32` in decimal, a `Num` as a
numeral; several are separated by commas. -/
def operandText : Instr → Option (List Char)
  | .dec image => some (bytesText (frameBytes (frameOfImage image)))
  | .enc v => some (natText v.toNat)
  | .wrcw v => some (natText v.toNat)
  | .wrDac v => some (bytesText (frameBytes (be32 v)))
  | .setmax x => numText x
  | .steer b pk ik =>
    match numText b, numText pk, numText ik with
    | some tb, some tp, some ti => some (tb ++ ',' :: ' ' :: tp ++ ',' :: ' ' :: ti)
    | _, _, _ => none
  | .getcw | .rdcw | .save | .init | .rsti | .rdFc | .saveFc => some []

/-- The line of an operation (R71); `none` when an operand has no textual form. -/
def instrText (i : Instr) : Option (List Char) :=
  match operandText i with
  | none => none
  | some [] => some (mnemonicText i)
  | some ops => some (mnemonicText i ++ ' ' :: ops)

/-- An acknowledgement as R71 writes it. -/
def ackText : Ack → List Char
  | .ok => ['o', 'k']
  | .err => ['e', 'r', 'r']

/-- A read answer as R71 writes it: `err`, the bytes, or `-` for none. -/
def readAnswerText : ReadAnswer → List Char
  | .err => ['e', 'r', 'r']
  | .got0 => bytesText []
  | .got1 b0 => bytesText [b0]
  | .got2 b0 b1 => bytesText [b0, b1]
  | .got3 b0 b1 b2 => bytesText [b0, b1, b2]
  | .got4 f => bytesText (frameBytes f)

/-- The answer of one bus event as it stands after the `|` of a line (R71). -/
def eventAnswerText : BusEvent → List Char
  | .ping a => ackText a
  | .read _ _ a => readAnswerText a
  | .write _ _ a => ackText a
  | .cmd _ a => ackText a

/-- The answers of a line's bus events, in the order the operation consumed them (R71). -/
def answersText : List BusEvent → List Char
  | [] => []
  | [e] => eventAnswerText e
  | e :: es => eventAnswerText e ++ ',' :: ' ' :: answersText es

/-- A line with its answers after `|` (R71); a line of an operation that used no primitive has none. -/
def lineText (i : Instr) (events : List BusEvent) : Option (List Char) :=
  match instrText i, events with
  | none, _ => none
  | some t, [] => some t
  | some t, es => some (t ++ ' ' :: '|' :: ' ' :: answersText es)

/-- The names an operation goes by and its selector: the mnemonics of R66 and the source's function names (R72). -/
def operationNames : List (String × BitVec 4) :=
  [("DEC", 0x1#4), ("decode", 0x1#4), ("ENC", 0x2#4), ("encode", 0x2#4), ("GETCW", 0x3#4),
    ("read", 0x3#4), ("RDCW", 0x4#4), ("WRCW", 0x5#4), ("STEER", 0x6#4),
    ("steerByBiasMillis", 0x6#4), ("SAVE", 0x7#4), ("persist", 0x7#4), ("INIT", 0x8#4),
    ("initialize", 0x8#4), ("SETMAX", 0x9#4), ("RSTI", 0xB#4)]

/-- The selector a name stands for (R66, R72). -/
def selectorOfName (name : List Char) : Option (BitVec 4) :=
  (operationNames.find? (fun row => decide (row.1.toList = name))).map (fun row => row.2)

/-- The pieces of a text between the separators; one more than there are separators. -/
def pieces (sep : Char) : List Char → List (List Char)
  | [] => [[]]
  | c :: cs =>
    if c = sep then [] :: pieces sep cs
    else
      match pieces sep cs with
      | [] => [[c]]
      | p :: ps => (c :: p) :: ps

/-- A text without the spaces at its two ends. -/
def trimmed (cs : List Char) : List Char :=
  ((cs.dropWhile (fun c => c == ' ')).reverse.dropWhile (fun c => c == ' ')).reverse

/-- The words of a text, separated by one or more spaces. DESIGN CHOICE (log 27): a tab is no space. -/
def wordsOf (cs : List Char) : List (List Char) := (pieces ' ' cs).filter (fun w => !w.isEmpty)

/-- The value of a digit in the given base, at most 16. DESIGN CHOICE (log 27): small letters are hexadecimal digits
too. -/
def digitValue (base : Nat) (c : Char) : Option Nat :=
  if 48 ≤ c.toNat ∧ c.toNat < 48 + min base 10 then some (c.toNat - 48)
  else if 65 ≤ c.toNat ∧ c.toNat < 55 + base then some (c.toNat - 55)
  else if 97 ≤ c.toNat ∧ c.toNat < 87 + base then some (c.toNat - 87)
  else none

/-- The value of further digits after `acc`. -/
def digitsFrom (base acc : Nat) : List Char → Option Nat
  | [] => some acc
  | c :: cs =>
    match digitValue base c with
    | some d => digitsFrom base (acc * base + d) cs
    | none => none

/-- The value of one or more digits. -/
def digitsValue (base : Nat) (cs : List Char) : Option Nat :=
  if cs.isEmpty then none else digitsFrom base 0 cs

/-- A `u32` operand: decimal, or hexadecimal after `0x` (R71). DESIGN CHOICE (log 27): a capital `X` is no prefix, leading
zeros are read, and a number of `2^32` or more is no operand. -/
def readWord (cs : List Char) : Option Word :=
  let n :=
    match cs with
    | '0' :: 'x' :: hex => digitsValue 16 hex
    | _ => digitsValue 10 cs
  match n with
  | some n => if n < 2 ^ 32 then some (BitVec.ofNat 32 n) else none
  | none => none

/-- A byte of two hexadecimal digits (R71). -/
def readByte (cs : List Char) : Option Byte :=
  if cs.length = 2 then (digitsValue 16 cs).map (BitVec.ofNat 8) else none

/-- All the readings of a list, or none when one fails. -/
def readAll {α : Type} (read : List Char → Option α) : List (List Char) → Option (List α)
  | [] => some []
  | t :: ts =>
    match read t, readAll read ts with
    | some x, some xs => some (x :: xs)
    | _, _ => none

/-- A frame operand: four bytes, `f[0]` first (R71). -/
def readFrame (cs : List Char) : Option Frame :=
  match readAll readByte (wordsOf cs) with
  | some [a, b, c, d] => some ⟨a, b, c, d⟩
  | _ => none

/-- `n × 10^e`. -/
def scaleDecimal (n : Nat) (e : Int) : Rat :=
  if 0 ≤ e then ((n * 10 ^ e.toNat : Nat) : Rat) else mkRat n (10 ^ (-e).toNat)

/-- The exponent of a numeral: decimal digits with an optional minus sign, and no plus sign (DESIGN CHOICE,
log 27). -/
def readExponent : List Char → Option Int
  | '-' :: ds => (digitsValue 10 ds).map (fun n => -(n : Int))
  | ds => (digitsValue 10 ds).map (fun n => (n : Int))

/-- A numeral without its exponent: digits, with an optional fraction, times `10^e`. DESIGN CHOICE (log 27): one of the
two groups of digits around the point may be empty. -/
def readMantissa (cs : List Char) (e : Int) : Option Rat :=
  match pieces '.' cs with
  | [whole] => (digitsValue 10 whole).map (fun n => scaleDecimal n e)
  | [whole, fraction] =>
    (digitsValue 10 (whole ++ fraction)).map (fun n => scaleDecimal n (e - fraction.length))
  | _ => none

/-- An unsigned numeral with an optional exponent (R71). DESIGN CHOICE (log 27): only a small `e` marks the exponent, as
in R71's example `200e-6`; a capital `E` is no numeral. -/
def readUnsigned (cs : List Char) : Option Rat :=
  match pieces 'e' cs with
  | [m] => readMantissa m 0
  | [m, e] =>
    match readExponent e with
    | some e => readMantissa m e
    | none => none
  | _ => none

/-- A `Num` operand: a decimal numeral with optional exponent, which denotes exactly that decimal (R71). -/
def readNum : List Char → Option Rat
  | '-' :: cs => (readUnsigned cs).map (fun q => -q)
  | cs => readUnsigned cs

/-- An operation as a line gives it. -/
inductive TextOp where
  /-- an operation with no `Num` operand -/
  | instr (i : Instr)
  /-- STEER, its operands as the decimals written -/
  | steer (b pk ik : Rat)
  /-- SETMAX, its operand as the decimal written -/
  | setmax (x : Rat)
  deriving DecidableEq, Repr

/-- An answer of the environment as a line gives it. -/
inductive TextAnswer where
  | ok
  | err
  /-- the bytes a read returned -/
  | bytes (bs : List Byte)
  deriving DecidableEq, Repr

/-- An operation of a selector with the texts of its operands (R66, R71). -/
def readOperands (op : BitVec 4) (operands : List (List Char)) : Option TextOp :=
  match op.toNat, operands with
  | 1, [f] => (readFrame f).map (fun f => .instr (.dec (imageOfFrame f)))
  | 2, [v] => (readWord v).map (fun v => .instr (.enc v))
  | 3, [] => some (.instr .getcw)
  | 4, [] => some (.instr .rdcw)
  | 5, [v] => (readWord v).map (fun v => .instr (.wrcw v))
  | 6, [b, pk, ik] =>
    match readNum b, readNum pk, readNum ik with
    | some b, some pk, some ik => some (.steer b pk ik)
    | _, _, _ => none
  | 7, [] => some (.instr .save)
  | 8, [] => some (.instr .init)
  | 9, [x] => (readNum x).map .setmax
  | 11, [] => some (.instr .rsti)
  | _, _ => none

/-- The operands of a line: separated by commas; none when nothing stands there. -/
def operandTexts (rest : List Char) : List (List Char) :=
  if (trimmed rest).isEmpty then [] else (pieces ',' rest).map trimmed

/-- `FREEZE b` stands for `STEER b, 0, 0` (R72). -/
def readFreeze (operands : List (List Char)) : Option TextOp :=
  match operands with
  | [b] => (readNum b).map (fun b => .steer b 0 0)
  | _ => none

/-- The part of a line before `|`: a name, then operands. -/
def readOperation (cs : List Char) : Option TextOp :=
  let name := (trimmed cs).takeWhile (fun c => c != ' ')
  let operands := operandTexts ((trimmed cs).dropWhile (fun c => c != ' '))
  if name = "FREEZE".toList then readFreeze operands
  else
    match selectorOfName name with
    | some op => readOperands op operands
    | none => none

/-- One answer: `ok`, `err`, `-` for no bytes, or the one to four bytes a read returned (R71, R44). DESIGN CHOICE
(log 27): an empty text and more than four bytes are no answer, and the line that has one is not read. -/
def readAnswer (cs : List Char) : Option TextAnswer :=
  if cs = "ok".toList then some .ok
  else if cs = "err".toList then some .err
  else if cs = "-".toList then some (.bytes [])
  else
    match readAll readByte (wordsOf cs) with
    | some bs => if 1 ≤ bs.length ∧ bs.length ≤ 4 then some (.bytes bs) else none
    | none => none

/-- A line: the operation, then the environment's answers after `|`, and a comment after `;` dropped (R71). DESIGN
CHOICE (log 27): spaces at the ends of a piece are skipped, and the number of answers is not held to the operation. -/
def readLine (cs : List Char) : Option (TextOp × List TextAnswer) :=
  match pieces '|' (cs.takeWhile (fun c => c != ';')) with
  | [op] => (readOperation op).map (fun op => (op, []))
  | [op, answers] =>
    match readOperation op, readAll readAnswer ((pieces ',' answers).map trimmed) with
    | some op, some answers => some (op, answers)
    | _, _ => none
  | _ => none

/-- The operation of a line, over the decimals it is written with (R9). -/
def execText (op : TextOp) (s : State) : Host.Outcome State Fault Refusal :=
  match op with
  | .instr i => exec i s
  | .steer b pk ik => steerNumbers Config.hw (some b) (some pk) (some ik) s
  | .setmax x => setmaxNumber (some x) s

end Sys2Proof.Machine
end

