-- ==== Sys2Proof/Safety.lean ====
section
/-!
DEFINITION. Safety: what counts as a safe run, in the terms the claims use. The bounds and addresses are written
as the numbers of R6 and R41 to R43, not through Config, so that a claim also says that Config holds them.
-/

namespace Sys2Proof.Machine

/-- The bus events the block can form (R41 to R43, R63): a read of four bytes at `0x41`, a write at `0xA0` of a
frame whose value is at most 1 000 000, the command `0xC2`, a ping. -/
def BusEvent.legal : BusEvent → Prop
  | .ping _ => True
  | .read ra n _ => ra = 0x41#8 ∧ n = 4
  | .write ra f _ => ra = 0xA0#8 ∧ (unbe32 f).toNat ≤ 1000000
  | .cmd ra _ => ra = 0xC2#8

/-- The primitive answered without error (R44): `Ok`, or four bytes. -/
def BusEvent.answered : BusEvent → Prop
  | .ping a => a = .ok
  | .read _ _ a => ∃ f, a = .got4 f
  | .write _ _ a => a = .ok
  | .cmd _ a => a = .ok

/-- The four bus transactions of R63, by name. -/
inductive Transaction where
  | ping
  | rdFc
  | wrDac
  | saveFc
  deriving DecidableEq, Repr

/-- The transaction an event is one of. -/
def BusEvent.transaction : BusEvent → Transaction
  | .ping _ => .ping
  | .read _ _ _ => .rdFc
  | .write _ _ _ => .wrDac
  | .cmd _ _ => .saveFc

/-- The bus transactions of an operation that is not cut short, in order (R63, R66). -/
def transactionsOf : Instr → List Transaction
  | .dec _ => []
  | .enc _ => []
  | .getcw => []
  | .rdcw => [.rdFc]
  | .wrcw _ => [.wrDac]
  | .steer _ _ _ => [.wrDac]
  | .save => [.saveFc, .rdFc]
  | .init => [.ping, .rdFc, .rdFc]
  | .setmax _ => []
  | .rsti => []
  | .rdFc => [.rdFc]
  | .wrDac _ => [.wrDac]
  | .saveFc => [.saveFc]

/-- The ten host operations of R66; the other three constructors are bus transactions. -/
def isHostOp : Instr → Bool
  | .dec _ => true
  | .enc _ => true
  | .getcw => true
  | .rdcw => true
  | .wrcw _ => true
  | .steer _ _ _ => true
  | .save => true
  | .init => true
  | .setmax _ => true
  | .rsti => true
  | .rdFc => false
  | .wrDac _ => false
  | .saveFc => false

/-- How many bytes a read returned; `none` for `Err` (R44). -/
def byteCount : ReadAnswer → Option Nat
  | .err => none
  | .got0 => some 0
  | .got1 _ => some 1
  | .got2 _ _ => some 2
  | .got3 _ _ _ => some 3
  | .got4 _ => some 4

/-- Why a read fails, in the order of R92: `Err`, fewer than four bytes, a value above 1 000 000; `none` when it
does not. -/
def readFailure : ReadAnswer → Option Cause
  | .err => some .busUnavailable
  | .got0 => some .shortRead
  | .got1 _ => some .shortRead
  | .got2 _ _ => some .shortRead
  | .got3 _ _ _ => some .shortRead
  | .got4 f => if 1000000 < (unbe32 f).toNat then some .outOfRange else none

/-- The causes an operation can raise: the table of R142. -/
def canRaise : Instr → Cause → Bool
  | .dec _, .outOfRange => true
  | .rdcw, _ => true
  | .wrcw _, .busUnavailable => true
  | .steer _ _ _, .busUnavailable => true
  | .save, _ => true
  | .init, _ => true
  | _, _ => false

/-- The invariant of a run: the Store's range (R21), a rate limit that is not negative (R23), the integrator's
range (R25), an integrator that was seeded from a valid cache (R103; 95_test_vectors.md V-R5), a status code
that R141 assigns, and a bus trace of events the block can form (R63). -/
structure State.Inv (s : State) : Prop where
  cw_le : s.cwv = true → s.cw.toNat ≤ 1000000
  maxchg_nonneg : s.maxv = true → 0 ≤ s.maxchg
  integ_range : s.inti = true → 0 ≤ s.integ ∧ s.integ ≤ 1000000
  seeded_valid : s.inti = true → s.cwv = true
  status_assigned : s.st.toNat ≤ 3
  trace_legal : ∀ e ∈ s.trace, e.legal

/-- The word a control word in `ℤ` saturates to (R110), with the literal bounds. -/
def specWord (n : Int) : Word := BitVec.ofNat 32 (min (max n 0) 1000000).toNat

/-- The rate-limited required change in control-word units, in exact arithmetic, with the literal values of
R105: `clamp(−b × 1 250 000 000, −m, m)` for `m = MAXCHG × 1250` (R104 to R106). -/
def specLimited (maxchg b : Rat) : Rat :=
  min (max (-b * 1250000000) (-(maxchg * 1250))) (maxchg * 1250)

/-- The integrator the call starts from: `INTEG`, or `CW` when it seeds (R103). -/
def specSeed (s : State) : Rat := if s.inti = true then s.integ else (s.cw.toNat : Rat)

/-- The integrator after step 6 (R108). -/
def specInteg (s : State) (b ik : Rat) : Rat :=
  min (max (specSeed s + specLimited s.maxchg b * ik) 0) 1000000

/-- The word of step 7 (R109, R110). -/
def specSteerWord (s : State) (b pk ik : Rat) : Word :=
  specWord (roundTiesAway (specLimited s.maxchg b * pk + specInteg s b ik))

/-- When a STEER executes normally: the rate limit was written, and the integrator is seeded or can be (R102,
R161). -/
def steerReady (s : State) : Prop := s.maxv = true ∧ (s.inti = true ∨ s.cwv = true)

/-- What may be assumed of a rounding function other than the identity (U9 a to f). -/
structure RndProperties (rnd : Rat → Rat) : Prop where
  zero : rnd 0 = 0
  neg : ∀ x, rnd (-x) = -rnd x
  mono : ∀ x y, x ≤ y → rnd x ≤ rnd y
  idem : ∀ x, rnd (rnd x) = rnd x
  int : ∀ n : Int, |n| ≤ 2 ^ 53 → rnd n = n
  near : ∀ x : Rat, (2 : Rat) ^ (-1022 : Int) ≤ |x| → |x| < 2 ^ 1024 → |rnd x - x| ≤ |x| * (2 : Rat) ^ (-53 : Int)

/-- The hardware's configuration with another rounding function (R9, R121). -/
def withRnd (rnd : Rat → Rat) : Config := { Config.hw with rnd := rnd }

/-- The same instruction executed `k` times in a row, stopping at a refusal. -/
def execTimes : Nat → Instr → State → Host.Outcome State Fault Refusal
  | 0, _, s => .next s
  | k + 1, i, s =>
    match exec i s with
    | .next t => execTimes k i t
    | .fault r => .fault r
    | .refused r => .refused r

end Sys2Proof.Machine
end

