-- ==== Sys2Proof/Certificates/Slice0/Obligations.lean ====
section
/-!
DEFINITION. Obligations: the statements for the provers. A docstring names the rule of spec/ a statement formalises;
where a clause rests on a decision or an inference of the spec, or on a choice of this model, it says so.
-/

open Sys2Proof Sys2Proof.Machine

/-! ### Frames and encodings -/

/-- R61, whole: the four slices, the arithmetic form, `f[0]` first on the bus, the example. -/
def Obligations.FrameEncodingIsBigEndian : Prop :=
  (∀ v : Word,
    be32 v = ⟨v.extractLsb' 24 8, v.extractLsb' 16 8, v.extractLsb' 8 8, v.extractLsb' 0 8⟩ ∧
    (be32 v).f0.toNat = v.toNat / 256 ^ 3 % 256 ∧
    (be32 v).f1.toNat = v.toNat / 256 ^ 2 % 256 ∧
    (be32 v).f2.toNat = v.toNat / 256 ^ 1 % 256 ∧
    (be32 v).f3.toNat = v.toNat / 256 ^ 0 % 256 ∧
    encode (.wrDac v) = .bus [0xA0#8, (be32 v).f0, (be32 v).f1, (be32 v).f2, (be32 v).f3]) ∧
  be32 1000000#32 = ⟨0x00#8, 0x0F#8, 0x42#8, 0x40#8⟩

/-- R62: the value, the example, and that `unbe32` and `be32` are inverse in both directions (the last is an
inference the spec marks as its own). -/
def Obligations.FrameDecodingInvertsEncoding : Prop :=
  (∀ f : Frame, (unbe32 f).toNat =
    f.f0.toNat * 2 ^ 24 + f.f1.toNat * 2 ^ 16 + f.f2.toNat * 2 ^ 8 + f.f3.toNat) ∧
  (∀ v : Word, unbe32 (be32 v) = v) ∧
  (∀ f : Frame, be32 (unbe32 f) = f) ∧
  unbe32 ⟨0x00#8, 0x07#8, 0xA1#8, 0x20#8⟩ = 500000#32

/-- R63: the data of a WR_DAC begins with `0x00`, and its second byte is at most `0x0F` (an inference the spec
marks as its own). -/
def Obligations.WriteDataStartsWithZero : Prop :=
  ∀ v : Word,
    (encodeFrame v).f0 = 0x00#8 ∧ (encodeFrame v).f1.toNat ≤ 0x0F ∧
    (v.toNat ≤ 1000000 → (be32 v).f0 = 0x00#8 ∧ (be32 v).f1.toNat ≤ 0x0F)

/-- Decoding an encoded well-formed instruction gives it back, with every operand at every value (selectors and
operand formats are the spec's decision D2). -/
def Obligations.DecodeOfEncode : Prop :=
  ∀ i : Instr, i.wf = true → decode (encode i) = .ok i

/-- What the decoder accepts is well formed and is the decoding of its own encoding; a bus transaction's bytes
and a host word's selector are those of the encoding (decision D2). -/
def Obligations.DecodedWordsAreWellFormed : Prop :=
  ∀ (p : Presented) (i : Instr), decode p = .ok i →
    i.wf = true ∧ decode (encode i) = .ok i ∧
    (∀ bytes, p = .bus bytes → encode i = .bus bytes) ∧
    (∀ w, p = .hostOp w → ∃ w', encode i = .hostOp w' ∧ w'.op = w.op)

/-- Some words written out from the tables of R63 and R66 (sanity; selectors are decision D2). -/
def Obligations.SampleWordsDecode : Prop :=
  decode (.hostOp ⟨0x1#4, 0x000F4241#64, 0#64, 0#64⟩) = .ok (.dec 0x000F4241#32) ∧
  decode (.hostOp ⟨0x5#4, 0x000000000016E360#64, 0#64, 0#64⟩) = .ok (.wrcw 1500000#32) ∧
  decode (.hostOp ⟨0x6#4, 0x3F2A36E2EB1C432D#64, 0x3FF0000000000000#64, 0#64⟩) =
    .ok (.steer 0x3F2A36E2EB1C432D#64 0x3FF0000000000000#64 0#64) ∧
  decode (.hostOp ⟨0xB#4, 0#64, 0#64, 0#64⟩) = .ok .rsti ∧
  decode (.bus [0x41#8]) = .ok .rdFc ∧
  decode (.bus [0xA0#8, 0x00#8, 0x07#8, 0x92#8, 0x7A#8]) = .ok (.wrDac 496250#32) ∧
  decode (.bus [0xC2#8]) = .ok .saveFc

/-- R67: operand bits an operation does not name are ignored (decision D2): the high half of `ARG0` for DEC,
ENC and WRCW, `ARG1` and `ARG2` for all but STEER, every operand for the operations with none. -/
def Obligations.UnnamedOperandBitsAreIgnored : Prop :=
  ∀ w : OpWord,
    (w.op = 0x1#4 ∨ w.op = 0x2#4 ∨ w.op = 0x5#4 → ∀ (hi : BitVec 32) (a1 a2 : BitVec 64),
      decode (.hostOp ⟨w.op, hi ++ w.arg0.extractLsb' 0 32, a1, a2⟩) = decode (.hostOp w)) ∧
    (w.op = 0x9#4 → ∀ a1 a2 : BitVec 64,
      decode (.hostOp ⟨w.op, w.arg0, a1, a2⟩) = decode (.hostOp w)) ∧
    (w.op ∈ [0x3#4, 0x4#4, 0x7#4, 0x8#4, 0xB#4] → ∀ a0 a1 a2 : BitVec 64,
      decode (.hostOp ⟨w.op, a0, a1, a2⟩) = decode (.hostOp w))

/-- R67 (c): the number a `Num` pattern denotes, by its sign, exponent and fraction fields (the spec takes the
format from general knowledge; log 19). -/
def Obligations.NumOperandDenotesBinary64 : Prop :=
  ∀ p : BitVec 64,
    let s : Nat := p.toNat / 2 ^ 63
    let e : Nat := p.toNat / 2 ^ 52 % 2 ^ 11
    let m : Nat := p.toNat % 2 ^ 52
    (e = 2047 → numOfBits p = none) ∧
    (1 ≤ e ∧ e ≤ 2046 →
      numOfBits p = some ((-1) ^ s * (2 ^ 52 + (m : Rat)) * (2 : Rat) ^ ((e : Int) - 1075))) ∧
    (e = 0 → numOfBits p = some ((-1) ^ s * (m : Rat) * (2 : Rat) ^ (-1074 : Int)))

/-- R71 and R72 (the spec's decision D18): the three examples of R71 are read, its three numerals denote the
decimals written, the DEC and the INIT example are printed (a printed STEER has the exact decimals of its patterns,
log 27), the six aliases select their mnemonics' operations, and FREEZE is STEER with both gains 0: the line `FREEZE 5`,
its operand for every numeral, and the term for every pattern. -/
def Obligations.TextualFormOfExamples : Prop :=
  readLine "INIT | ok, 00 00 00 00, 00 07 A1 20".toList =
    some (.instr .init,
      [.ok, .bytes [0x00#8, 0x00#8, 0x00#8, 0x00#8], .bytes [0x00#8, 0x07#8, 0xA1#8, 0x20#8]]) ∧
  readLine "STEER 0.0002, 1, 0 | ok".toList = some (.steer (2 / 10000) 1 0, [.ok]) ∧
  readLine "DEC 00 0F 42 41".toList = some (.instr (.dec 0x000F4241#32), []) ∧
  readNum "0.0002".toList = some (2 / 10000) ∧ readNum "200e-6".toList = some (200 / 1000000) ∧
  readNum "-3.5".toList = some (-35 / 10) ∧
  instrText (.dec 0x000F4241#32) = some "DEC 00 0F 42 41".toList ∧
  lineText .init [.ping .ok, .read 0x41#8 4 (.got4 ⟨0#8, 0#8, 0#8, 0#8⟩),
    .read 0x41#8 4 (.got4 ⟨0x00#8, 0x07#8, 0xA1#8, 0x20#8⟩)] =
    some "INIT | ok, 00 00 00 00, 00 07 A1 20".toList ∧
  ["decode", "encode", "read", "steerByBiasMillis", "persist", "initialize"].map
      (fun name => selectorOfName name.toList) =
    ["DEC", "ENC", "GETCW", "STEER", "SAVE", "INIT"].map (fun name => selectorOfName name.toList) ∧
  ["DEC", "ENC", "GETCW", "STEER", "SAVE", "INIT"].map (fun name => selectorOfName name.toList) =
    [some 0x1#4, some 0x2#4, some 0x3#4, some 0x6#4, some 0x7#4, some 0x8#4] ∧
  readLine "FREEZE 5 | ok".toList = some (.steer 5 0 0, [.ok]) ∧
  (∀ (b : List Char) (q : Rat), readNum b = some q → readFreeze [b] = some (.steer q 0 0)) ∧
  (∀ b : BitVec 64, Instr.freeze b = .steer b 0#64 0#64) ∧ numOfBits 0#64 = some 0

/-! ### The step and reset -/

/-- A step runs the decoded instruction, in the state with its request taken (how the host presents an
operation is decision D2; the list of requests is the model's, log 1). -/
def Obligations.StepRunsPresentedInstruction : Prop :=
  ∀ (s : State) (p : Presented) (rest : List Request) (i : Instr),
    s.requests = .present p :: rest → decode p = .ok i →
    step s = exec i { s with requests := rest }

/-- With nothing presented nothing changes (the model's choice, log 1), and a selector that names no operation
is refused by its name (R69 d, decision D21). -/
def Obligations.StepIdlesOrRefusesUnassigned : Prop :=
  (∀ s : State, s.requests = [] → step s = .next s) ∧
  (∀ (s : State) (w : OpWord) (rest : List Request),
    s.requests = .present (.hostOp w) :: rest →
    w.op ∈ [0x0#4, 0xA#4, 0xC#4, 0xD#4, 0xE#4, 0xF#4] →
    step s = .refused (.unassignedSelector w.op)) ∧
  (∀ w : OpWord, w.op ∉ [0x0#4, 0xA#4, 0xC#4, 0xD#4, 0xE#4, 0xF#4] →
    ∃ i, decode (.hostOp w) = .ok i)

/-- An instruction placed by the host is the next one to run, in the state it was placed in (log 1, log 16). -/
def Obligations.PlacedWordIsRunNext : Prop :=
  ∀ (s : State) (nbits w : Nat) (i : Instr), decodeTableWord nbits w = some i →
    step (s.withFetchWord nbits w) = exec i s

/-- R33, R160: the reset input clears the three flags, issues no bus event, and leaves the environment and the
host's further requests (the reset input is decision D17; that the trace record stays is log 5). -/
def Obligations.ResetInputClearsFlags : Prop :=
  ∀ (s : State) (rest : List Request), s.requests = .reset :: rest →
    ∃ t, step s = .next t ∧ t.cwv = false ∧ t.maxv = false ∧ t.inti = false ∧
      t.trace = s.trace ∧ t.env = s.env ∧ t.requests = rest

/-- R33: after power-on reset the three flags are 0, no bus event was issued (R160), and the invariant holds. That
the invariant's status clause holds there (`ST` at most 3) is the model's choice `ST = 0`, a DESIGN CHOICE (log 4):
R33 leaves `ST` unspecified until the first operation completes. -/
def Obligations.InvariantHoldsAtReset : Prop :=
  State.reset.cwv = false ∧ State.reset.maxv = false ∧ State.reset.inti = false ∧
  State.reset.trace = [] ∧ State.reset.Inv

/-- Every step keeps the invariant: the Store's range (R21), the rate limit's sign (R23), the integrator's range
(R25), the status codes (R141) and the events the block can form (R63). It rests on D5 and D6 (the bounds); that a
reset input leaves `ST` at most 3 is the model's choice `ST = 0`, a DESIGN CHOICE (log 4, log 5), since R33 leaves
`ST` unspecified until the first operation completes. -/
def Obligations.EveryStepKeepsInvariant : Prop :=
  ∀ s t : State, s.Inv → step s = .next t → t.Inv

/-! ### Codec -/

/-- R81, whole: `Ok(v)` for a value at most `MAX_CONTROL`, `Fail(OutOfRange)` above it, with no cached state
changed, for every frame image and in every state. -/
def Obligations.DecAcceptsInRangeOnly : Prop :=
  ∀ (f : Frame) (s : State),
    ((unbe32 f).toNat ≤ 1000000 →
      decodeFrame f = .ok (unbe32 f) ∧
      ∃ t, exec (.dec (unbe32 f)) s = .next t ∧ t.st = statusOk ∧ t.res = unbe32 f ∧
        t = { s with st := t.st, res := t.res, tick := t.tick }) ∧
    (1000000 < (unbe32 f).toNat →
      decodeFrame f = .error .outOfRange ∧
      ∃ t, exec (.dec (unbe32 f)) s = .next t ∧ t.st = statusOf .outOfRange ∧
        t = { s with st := t.st, res := t.res, tick := t.tick })

/-- R82, whole: ENC answers the frame of `min(v, MAX_CONTROL)` for every `u32` and never fails; no register
changes. The result register holds the frame's image. -/
def Obligations.EncClampsAndNeverFails : Prop :=
  ∀ (v : Word) (s : State),
    encodeFrame v = be32 (BitVec.ofNat 32 (min v.toNat 1000000)) ∧
    ∃ t, exec (.enc v) s = .next t ∧ t.st = statusOk ∧
      t.res = unbe32 (be32 (BitVec.ofNat 32 (min v.toNat 1000000))) ∧
      t = { s with st := t.st, res := t.res, tick := t.tick }

/-- R83: `DEC(ENC(v)) = Ok(min(v, MAX_CONTROL))`, run as two operations; and ENC inverts an accepted DEC (the
second is an inference the spec marks as its own). -/
def Obligations.CodecRoundTrip : Prop :=
  (∀ (v : Word) (s : State), ∃ t u,
    exec (.enc v) s = .next t ∧ exec (.dec t.res) t = .next u ∧
    u.st = statusOk ∧ u.res.toNat = min v.toNat 1000000) ∧
  (∀ (f : Frame) (v : Word), decodeFrame f = .ok v → encodeFrame v = f)

/-- R84: every value above the maximum encodes as the maximum does; clamping twice is clamping once (the second
is an inference the spec marks as its own). -/
def Obligations.EncodeClampIsIdempotent : Prop :=
  (∀ v : Word, 1000000 < v.toNat →
    encodeFrame v = encodeFrame 1000000#32 ∧ encodeFrame v = ⟨0x00#8, 0x0F#8, 0x42#8, 0x40#8⟩) ∧
  (∀ v : Word, encodeFrame (BitVec.ofNat 32 (min v.toNat 1000000)) = encodeFrame v)

/-- R80, whole: DEC and ENC complete in every state, change no register and issue no bus event, and their
result depends on the operand alone; and the read path decodes with the rule of DEC, the write path encodes
with the rule of ENC. -/
def Obligations.CodecIsPure : Prop :=
  (∀ (x : Word) (i : Instr) (s s' : State), i = .dec x ∨ i = .enc x →
    ∃ t t', exec i s = .next t ∧ exec i s' = .next t' ∧
      t.st = t'.st ∧ (t.st = statusOk → t.res = t'.res) ∧
      t = { s with st := t.st, res := t.res, tick := t.tick }) ∧
  (∀ f : Frame, classifyRead (.got4 f) = decodeFrame f) ∧
  (∀ (v : Word) (s : State), ∃ a,
    (writePath v s).trace = s.trace ++ [.write 0xA0#8 (encodeFrame v) a])

/-! ### The Store and the single-transaction operations -/

/-- R90: GETCW answers the cache when it was ever committed, and is refused when not (the refusal is decision
D8). -/
def Obligations.GetcwAnswersTheCache : Prop :=
  ∀ s : State,
    (s.cwv = true → exec .getcw s =
      .next { s with st := statusOk, res := s.cw, tick := s.tick + 1 }) ∧
    (s.cwv = false → exec .getcw s = .refused .cacheNeverWritten)

/-- R93 with R92: RDCW commits and answers a value in range, after one read event (RDCW as a host operation is
decision D11). -/
def Obligations.RdcwCommitsTheValueRead : Prop :=
  ∀ (s : State) (f : Frame) (e : Environment),
    answerRead s.env 0x41#8 = (.got4 f, e) → (unbe32 f).toNat ≤ 1000000 →
    exec .rdcw s = .next { s with
      cw := unbe32 f, cwv := true, st := statusOk, res := unbe32 f, tick := s.tick + 1, env := e,
      trace := s.trace ++ [.read 0x41#8 4 (.got4 f)] }

/-- R92, R93: a read that fails commits nothing and reports its cause, for each of the causes (decision D11). -/
def Obligations.RdcwFailureKeepsTheStore : Prop :=
  ∀ (s : State) (a : ReadAnswer) (e : Environment) (c : Cause),
    answerRead s.env 0x41#8 = (a, e) → readFailure a = some c →
    exec .rdcw s = .next { s with
      st := statusOf c, res := Config.freeRes s.tick, tick := s.tick + 1, env := e,
      trace := s.trace ++ [.read 0x41#8 4 a] }

/-- R94: WRCW writes the frame of the clamped value; on `Ok` it commits and answers that value, on `Err` it fails
and changes no register (WRCW as a host operation is decision D11). -/
def Obligations.WrcwWritesTheClampedValue : Prop :=
  ∀ (s : State) (v w : Word) (e : Environment), w = BitVec.ofNat 32 (min v.toNat 1000000) →
    (answerWrite s.env 0xA0#8 (be32 w) = (.ok, e) →
      exec (.wrcw v) s = .next { s with
        cw := w, cwv := true, st := statusOk, res := w, tick := s.tick + 1, env := e,
        trace := s.trace ++ [.write 0xA0#8 (be32 w) .ok] }) ∧
    (answerWrite s.env 0xA0#8 (be32 w) = (.err, e) →
      exec (.wrcw v) s = .next { s with
        st := statusOf .busUnavailable, res := Config.freeRes s.tick, tick := s.tick + 1, env := e,
        trace := s.trace ++ [.write 0xA0#8 (be32 w) .err] })

/-- R95, whole: a failing operation leaves the Store; DEC, ENC, GETCW, SETMAX and RSTI always leave it; and the
Store changes only after a bus primitive answered without error in the same operation. -/
def Obligations.StoreChangesOnlyAfterSuccess : Prop :=
  ∀ (i : Instr) (s t : State), exec i s = .next t →
    (t.st ≠ statusOk → t.cw = s.cw ∧ t.cwv = s.cwv) ∧
    ((∃ x, i = .dec x ∨ i = .enc x) ∨ i = .getcw ∨ (∃ x, i = .setmax x) ∨ i = .rsti →
      t.cw = s.cw ∧ t.cwv = s.cwv) ∧
    (t.cw ≠ s.cw ∨ t.cwv ≠ s.cwv →
      t.cwv = true ∧ ∃ es e, t.trace = s.trace ++ es ∧ e ∈ es ∧ e.answered)

/-- R96 (a, c, d; inferences the spec marks as its own): validity is never lost, and after a success the cache is
the value of the last frame read, or of the last frame written. -/
def Obligations.CacheIsTheLastFrame : Prop :=
  ∀ (i : Instr) (s t : State), exec i s = .next t →
    (s.cwv = true → t.cwv = true) ∧
    (i = .rdcw ∨ i = .save ∨ i = .init → t.st = statusOk →
      ∃ front f, t.trace = front ++ [.read 0x41#8 4 (.got4 f)] ∧ t.cw = unbe32 f ∧ t.cwv = true) ∧
    ((∃ v, i = .wrcw v) ∨ (∃ b pk ik, i = .steer b pk ik) → t.st = statusOk →
      t.trace = s.trace ++ [.write 0xA0#8 (be32 t.cw) .ok] ∧ t.cwv = true)

/-! ### Steering -/

/-- R10: nearest integer, odd, ties away from zero, with the rule's examples (the tie rule is decision D4). -/
def Obligations.RoundIsNearestTiesAway : Prop :=
  (∀ q : Rat, |(roundTiesAway q : Rat) - q| ≤ 1 / 2 ∧
    (|(roundTiesAway q : Rat) - q| = 1 / 2 → |q| < |(roundTiesAway q : Rat)|) ∧
    roundTiesAway (-q) = -roundTiesAway q) ∧
  roundTiesAway (5 / 2) = 3 ∧ roundTiesAway (-5 / 2) = -3 ∧ roundTiesAway (49 / 100) = 0 ∧
  roundTiesAway (-1 / 2) = -1

/-- R110: saturation in the integers before narrowing: no sum wraps (the lower half is decision D6). -/
def Obligations.OversizedSumsSaturate : Prop :=
  ∀ n : Int,
    (n < 0 → saturateCW Config.hw n = 0#32) ∧
    (1000000 < n → saturateCW Config.hw n = 1000000#32) ∧
    (0 ≤ n ∧ n ≤ 1000000 → ((saturateCW Config.hw n).toNat : Int) = n)

/-- R104 to R110 with the literal values: every intermediate of a STEER in exact arithmetic (exactness is decision
D1, the tie rule D4, the bounds D5 and D6). -/
def Obligations.ReferenceArithmeticOfSteer : Prop :=
  ∀ maxchg integ b pk ik : Rat,
    let r := steerSteps Config.hw maxchg integ b pk ik
    r.e = (0 - b) / 1000 ∧ r.req = -b * 1250000000 ∧ r.m = maxchg * 1250 ∧
    r.reqc = min (max (-b * 1250000000) (-(maxchg * 1250))) (maxchg * 1250) ∧
    r.p = r.reqc * pk ∧ r.dI = r.reqc * ik ∧
    r.integ = min (max (integ + r.dI) 0) 1000000 ∧
    r.n = roundTiesAway (r.p + r.integ) ∧ r.w = specWord r.n

/-- R121: where an implementation that rounds places its roundings (decision D1). -/
def Obligations.RoundingPlacements : Prop :=
  ∀ (rnd : Rat → Rat) (maxchg integ b pk ik : Rat),
    let r := steerSteps (withRnd rnd) maxchg integ b pk ik
    let lsb := rnd (8 / 10000000000000)
    let ppb := rnd (1 / 1000000000)
    r.e = rnd (rnd (0 - b) / 1000) ∧ r.req = rnd (r.e / lsb) ∧
    r.m = rnd (rnd (maxchg * ppb) / lsb) ∧ r.reqc = min (max r.req (-r.m)) r.m ∧
    r.p = rnd (r.reqc * pk) ∧ r.dI = rnd (r.reqc * ik) ∧
    r.integ = min (max (rnd (integ + r.dI)) 0) 1000000 ∧
    r.n = roundTiesAway (rnd (r.p + r.integ))

/-- R106, whole: the rate-limit clamp, for every legal rate limit. -/
def Obligations.RateLimitClampsTheRequiredChange : Prop :=
  ∀ maxchg integ b pk ik : Rat, 0 ≤ maxchg →
    let r := steerSteps Config.hw maxchg integ b pk ik
    |r.reqc| ≤ r.m ∧ (|r.req| ≤ r.m → r.reqc = r.req) ∧
    (r.m < r.req → r.reqc = r.m) ∧ (r.req < -r.m → r.reqc = -r.m)

/-- R117 (an inference the spec marks as its own; `round` by D4): the proportional term and its rounding, and the
integral step, are within the rate limit times the gain. -/
def Obligations.ProportionalTermWithinRateLimit : Prop :=
  ∀ maxchg integ b pk ik : Rat, 0 ≤ maxchg →
    let r := steerSteps Config.hw maxchg integ b pk ik
    |r.p| ≤ maxchg * 1250 * |pk| ∧ |r.dI| ≤ maxchg * 1250 * |ik| ∧
    |roundTiesAway r.p| ≤ roundTiesAway (maxchg * 1250 * |pk|)

/-- U9, R121: the bounds hold for every rounding function with the assumed properties: the rate limit, the
terms, the integrator and the word (decision D1; R25 and R110 under D5 and D6). -/
def Obligations.BoundsHoldForEveryRounding : Prop :=
  ∀ (rnd : Rat → Rat), RndProperties rnd → ∀ maxchg integ b pk ik : Rat, 0 ≤ maxchg →
    let r := steerSteps (withRnd rnd) maxchg integ b pk ik
    0 ≤ r.m ∧ |r.reqc| ≤ r.m ∧ |r.p| ≤ rnd (r.m * |pk|) ∧ |r.dI| ≤ rnd (r.m * |ik|) ∧
    0 ≤ r.integ ∧ r.integ ≤ 1000000 ∧ r.w.toNat ≤ 1000000

/-- R100: SETMAX stores a number that is not negative, zero included, and is refused otherwise (the operation is
decision D9, the refusals D15). -/
def Obligations.SetmaxStoresTheRateLimit : Prop :=
  ∀ (s : State) (x : BitVec 64),
    (∀ q, numOfBits x = some q → 0 ≤ q → exec (.setmax x) s =
      .next { s with
        maxchg := q, maxv := true, st := statusOk, res := Config.freeRes s.tick,
        tick := s.tick + 1 }) ∧
    (∀ q, numOfBits x = some q → q < 0 → exec (.setmax x) s = .refused .negativeRateLimit) ∧
    (numOfBits x = none → exec (.setmax x) s = .refused .operandNotANumber)

/-- R101: RSTI clears `INTI`, leaves `INTEG` unspecified and touches nothing else; with `INTI = 0` no register
changes (decision D10; the free value is log 6). -/
def Obligations.RstiClearsTheIntegratorFlag : Prop :=
  ∀ s : State,
    (s.inti = true → exec .rsti s =
      .next { s with
        inti := false, integ := Config.freeInteg s.tick, st := statusOk,
        res := Config.freeRes s.tick, tick := s.tick + 1 }) ∧
    (s.inti = false → exec .rsti s =
      .next { s with st := statusOk, res := Config.freeRes s.tick, tick := s.tick + 1 })

/-- R102 to R111 on an accepted write: the seed, the integrator, the word written, committed and answered
(decisions D1, D4, D5, D6). -/
def Obligations.SteerCommitsTheNewWord : Prop :=
  ∀ (s : State) (b pk ik : BitVec 64) (qb qp qi : Rat) (w : Word) (e : Environment),
    steerReady s → numOfBits b = some qb → numOfBits pk = some qp → numOfBits ik = some qi →
    w = specSteerWord s qb qp qi → answerWrite s.env 0xA0#8 (be32 w) = (.ok, e) →
    exec (.steer b pk ik) s = .next { s with
      cw := w, cwv := true, integ := specInteg s qb qi, inti := true, st := statusOk, res := w,
      tick := s.tick + 1, env := e, trace := s.trace ++ [.write 0xA0#8 (be32 w) .ok] }

/-- R112: on a refused write the Store is as before and the integrator and its flag keep what steps 0 and 6
wrote (no rollback is decision D7). -/
def Obligations.SteerFailureKeepsTheIntegrator : Prop :=
  ∀ (s : State) (b pk ik : BitVec 64) (qb qp qi : Rat) (w : Word) (e : Environment),
    steerReady s → numOfBits b = some qb → numOfBits pk = some qp → numOfBits ik = some qi →
    w = specSteerWord s qb qp qi → answerWrite s.env 0xA0#8 (be32 w) = (.err, e) →
    exec (.steer b pk ik) s = .next { s with
      integ := specInteg s qb qi, inti := true, st := statusOf .busUnavailable,
      res := Config.freeRes s.tick, tick := s.tick + 1, env := e,
      trace := s.trace ++ [.write 0xA0#8 (be32 w) .err] }

/-- R102, R148: when STEER is refused, and with which name (decisions D8, D15). -/
def Obligations.SteerRefusals : Prop :=
  ∀ (s : State) (b pk ik : BitVec 64),
    (s.maxv = false → exec (.steer b pk ik) s = .refused .rateLimitNeverWritten) ∧
    (s.maxv = true → s.inti = false → s.cwv = false →
      exec (.steer b pk ik) s = .refused .cacheNeverWritten) ∧
    (steerReady s → numOfBits b = none ∨ numOfBits pk = none ∨ numOfBits ik = none →
      exec (.steer b pk ik) s = .refused .operandNotANumber)

/-- R113, R114, R115: with a zero bias, or both gains zero (FREEZE), or a zero rate limit, the integrator keeps
its value and the word sent is its rounding; on an accepted write that word is committed (the rounding is D4,
the range of the integrator D5). -/
def Obligations.NoCorrectionHoldsTheIntegrator : Prop :=
  ∀ (s : State) (b pk ik : BitVec 64) (qb qp qi : Rat), s.Inv →
    steerReady s → numOfBits b = some qb → numOfBits pk = some qp → numOfBits ik = some qi →
    qb = 0 ∨ (qp = 0 ∧ qi = 0) ∨ s.maxchg = 0 →
    ∃ t a, exec (.steer b pk ik) s = .next t ∧ t.integ = specSeed s ∧ t.inti = true ∧
      t.trace = s.trace ++ [.write 0xA0#8 (be32 (specWord (roundTiesAway (specSeed s)))) a] ∧
      (a = .ok → t.cw = specWord (roundTiesAway (specSeed s)))

/-- R120 (an inference the spec marks as its own): the result depends on the rate limit, the integrator, the cache
only when it seeds, and the answer of the write, and on nothing else. -/
def Obligations.SteerDependsOnNothingElse : Prop :=
  ∀ (s s' t : State) (b pk ik : BitVec 64),
    s.maxchg = s'.maxchg → s.maxv = s'.maxv → s.inti = s'.inti →
    (s.inti = true → s.integ = s'.integ) →
    (s.inti = false → s.cw = s'.cw ∧ s.cwv = s'.cwv) →
    (∀ f, (answerWrite s.env 0xA0#8 f).1 = (answerWrite s'.env 0xA0#8 f).1) →
    exec (.steer b pk ik) s = .next t →
    ∃ t' e, exec (.steer b pk ik) s' = .next t' ∧
      t'.st = t.st ∧ t'.integ = t.integ ∧ t'.inti = t.inti ∧
      (t.st = statusOk → t'.res = t.res ∧ t'.cw = t.cw) ∧
      t.trace = s.trace ++ [e] ∧ t'.trace = s'.trace ++ [e]

/-- R118, R165 (inferences the spec marks as its own): `k` equal STEER calls move the integrator by `k` times the
integral step, up to the bounds, whatever the writes answer; with a positive integral gain and rate limit the
step has the sign of the error (the bounds are D5, no rollback D7). -/
def Obligations.IntegratorRunIsMonotone : Prop :=
  ∀ (k : Nat) (s : State) (b pk ik : BitVec 64) (qb qp qi : Rat), s.Inv →
    steerReady s → numOfBits b = some qb → numOfBits pk = some qp → numOfBits ik = some qi →
    (∃ t, execTimes k (.steer b pk ik) s = .next t ∧
      specSeed t =
        min (max (specSeed s + k * (specLimited s.maxchg qb * qi)) 0) 1000000) ∧
    (0 < s.maxchg → 0 < qi →
      (qb < 0 → 0 < specLimited s.maxchg qb * qi) ∧ (0 < qb → specLimited s.maxchg qb * qi < 0))

/-- R119 (a) (an inference the spec marks as its own): on the call that seeds, without saturation, the word moves
from `CW` by the rounded correction, hence by at most `m × |Pk + Ik| + 1/2`. -/
def Obligations.SeedingCallMovesByTheCorrection : Prop :=
  ∀ (s t : State) (b pk ik : BitVec 64) (qb qp qi : Rat), s.Inv → s.inti = false →
    numOfBits b = some qb → numOfBits pk = some qp → numOfBits ik = some qi →
    exec (.steer b pk ik) s = .next t → t.st = statusOk →
    0 ≤ (s.cw.toNat : Rat) + specLimited s.maxchg qb * qi →
    (s.cw.toNat : Rat) + specLimited s.maxchg qb * qi ≤ 1000000 →
    0 ≤ roundTiesAway ((s.cw.toNat : Rat) + specLimited s.maxchg qb * (qp + qi)) →
    roundTiesAway ((s.cw.toNat : Rat) + specLimited s.maxchg qb * (qp + qi)) ≤ 1000000 →
    (t.cw.toNat : Int) =
        roundTiesAway ((s.cw.toNat : Rat) + specLimited s.maxchg qb * (qp + qi)) ∧
      |(t.cw.toNat : Rat) - (s.cw.toNat : Rat)| ≤ s.maxchg * 1250 * |qp + qi| + 1 / 2

/-- R119 (b) (an inference the spec marks as its own): between two successive successful calls the word moves by
at most the two proportional terms, the second integral step, and one. -/
def Obligations.SuccessiveCallsMoveBound : Prop :=
  ∀ (s t u : State) (b1 p1 i1 b2 p2 i2 : BitVec 64) (qb1 qp1 qb2 qp2 qi2 : Rat),
    numOfBits b1 = some qb1 → numOfBits p1 = some qp1 →
    numOfBits b2 = some qb2 → numOfBits p2 = some qp2 → numOfBits i2 = some qi2 →
    exec (.steer b1 p1 i1) s = .next t → t.st = statusOk →
    exec (.steer b2 p2 i2) t = .next u → u.st = statusOk →
    |(u.cw.toNat : Rat) - (t.cw.toNat : Rat)| ≤
      |specLimited s.maxchg qb1 * qp1| + |specLimited s.maxchg qb2 * qp2| +
        |specLimited s.maxchg qb2 * qi2| + 1

/-- R170, whole: every STEER issues exactly one WR_DAC, also with a zero bias, zero gains or a zero rate limit,
and also when the new word is the cached one. -/
def Obligations.EverySteerWritesOnce : Prop :=
  ∀ (s : State) (b pk ik : BitVec 64) (qb qp qi : Rat),
    steerReady s → numOfBits b = some qb → numOfBits pk = some qp → numOfBits ik = some qi →
    ∃ t w a, exec (.steer b pk ik) s = .next t ∧
      t.trace = s.trace ++ [.write 0xA0#8 (be32 w) a] ∧ w.toNat ≤ 1000000

/-! ### Persist and start-up -/

/-- R130: SAVE commits and answers what it read back after an accepted command. -/
def Obligations.SaveCommitsTheReadBack : Prop :=
  ∀ (s : State) (f : Frame) (e1 e2 : Environment),
    answerCmd s.env 0xC2#8 = (.ok, e1) → answerRead e1 0x41#8 = (.got4 f, e2) →
    (unbe32 f).toNat ≤ 1000000 →
    exec .save s = .next { s with
      cw := unbe32 f, cwv := true, st := statusOk, res := unbe32 f, tick := s.tick + 1, env := e2,
      trace := s.trace ++ [.cmd 0xC2#8 .ok, .read 0x41#8 4 (.got4 f)] }

/-- R130: a refused command ends SAVE with no read (decision D13); a failed read reports its cause; neither
changes a register. -/
def Obligations.SaveFailures : Prop :=
  ∀ (s : State) (e1 : Environment),
    (answerCmd s.env 0xC2#8 = (.err, e1) → exec .save s = .next { s with
      st := statusOf .busUnavailable, res := Config.freeRes s.tick, tick := s.tick + 1, env := e1,
      trace := s.trace ++ [.cmd 0xC2#8 .err] }) ∧
    (∀ (a : ReadAnswer) (e2 : Environment) (c : Cause),
      answerCmd s.env 0xC2#8 = (.ok, e1) → answerRead e1 0x41#8 = (a, e2) →
      readFailure a = some c → exec .save s = .next { s with
        st := statusOf c, res := Config.freeRes s.tick, tick := s.tick + 1, env := e2,
        trace := s.trace ++ [.cmd 0xC2#8 .ok, .read 0x41#8 4 a] })

/-- R132: INIT commits the second read's value when the ping and both reads succeeded; the first value is
discarded. -/
def Obligations.InitCommitsTheSecondRead : Prop :=
  ∀ (s : State) (f1 f2 : Frame) (e1 e2 e3 : Environment),
    answerPing s.env = (.ok, e1) → answerRead e1 0x41#8 = (.got4 f1, e2) →
    answerRead e2 0x41#8 = (.got4 f2, e3) →
    (unbe32 f1).toNat ≤ 1000000 → (unbe32 f2).toNat ≤ 1000000 →
    exec .init s = .next { s with
      cw := unbe32 f2, cwv := true, st := statusOk, res := Config.freeRes s.tick,
      tick := s.tick + 1, env := e3,
      trace := s.trace ++
        [.ping .ok, .read 0x41#8 4 (.got4 f1), .read 0x41#8 4 (.got4 f2)] }

/-- R132, R143: a failed ping ends INIT with no read; after a ping both reads are issued, and the first read that
failed names the cause; no register changes (decision D12). -/
def Obligations.InitFailures : Prop :=
  ∀ (s : State) (e1 : Environment),
    (answerPing s.env = (.err, e1) → exec .init s = .next { s with
      st := statusOf .busUnavailable, res := Config.freeRes s.tick, tick := s.tick + 1, env := e1,
      trace := s.trace ++ [.ping .err] }) ∧
    (∀ (a1 a2 : ReadAnswer) (e2 e3 : Environment) (c : Cause),
      answerPing s.env = (.ok, e1) → answerRead e1 0x41#8 = (a1, e2) →
      answerRead e2 0x41#8 = (a2, e3) →
      readFailure a1 = some c ∨ (readFailure a1 = none ∧ readFailure a2 = some c) →
      exec .init s = .next { s with
        st := statusOf c, res := Config.freeRes s.tick, tick := s.tick + 1, env := e3,
        trace := s.trace ++ [.ping .ok, .read 0x41#8 4 a1, .read 0x41#8 4 a2] })

/-- R133: INIT succeeds only with two reads, and only INIT reads twice (a refused command ends SAVE with no read:
decision D13). -/
def Obligations.OnlyInitReadsTwice : Prop :=
  (∀ s t : State, exec .init s = .next t → t.st = statusOk →
    ∃ a f, t.trace = s.trace ++ [.ping .ok, .read 0x41#8 4 a, .read 0x41#8 4 (.got4 f)] ∧
      t.cw = unbe32 f) ∧
  (∀ s t : State, exec .rdcw s = .next t → ∃ a, t.trace = s.trace ++ [.read 0x41#8 4 a]) ∧
  (∀ s t : State, exec .save s = .next t →
    t.trace = s.trace ++ [.cmd 0xC2#8 .err] ∨
    ∃ a, t.trace = s.trace ++ [.cmd 0xC2#8 .ok, .read 0x41#8 4 a]) ∧
  (∀ (i : Instr) (s t : State), exec i s = .next t → i ≠ .init →
    ∃ es, t.trace = s.trace ++ es ∧ (es.map BusEvent.transaction).count .rdFc ≤ 1)

/-! ### Bus transactions -/

/-- R63, R44: each of the three bus transactions of the table is one event with its answer and changes no
register; a WR_DAC above the maximum is never formed and is refused (run alone, log 8; the refusal, log 9). -/
def Obligations.BusTransactionsAreOneEvent : Prop :=
  ∀ (s : State) (e : Environment),
    (∀ a, answerRead s.env 0x41#8 = (a, e) → exec .rdFc s =
      .next { s with env := e, trace := s.trace ++ [.read 0x41#8 4 a] }) ∧
    (∀ v a, v.toNat ≤ 1000000 → answerWrite s.env 0xA0#8 (be32 v) = (a, e) →
      exec (.wrDac v) s =
        .next { s with env := e, trace := s.trace ++ [.write 0xA0#8 (be32 v) a] }) ∧
    (∀ v : Word, 1000000 < v.toNat →
      exec (.wrDac v) s = .refused (.writeDataAboveMaximum v)) ∧
    (∀ a, answerCmd s.env 0xC2#8 = (a, e) → exec .saveFc s =
      .next { s with env := e, trace := s.trace ++ [.cmd 0xC2#8 a] })

/-- R51, R63, R66: an instruction appends to the trace exactly its transactions, in order, each one the block
can form; only a refused save command or a failed ping cuts the list short (decisions D12, D13). -/
def Obligations.TransactionsInOrder : Prop :=
  ∀ (i : Instr) (s t : State), exec i s = .next t →
    ∃ es, t.trace = s.trace ++ es ∧ (∀ e ∈ es, e.legal) ∧
      (es.map BusEvent.transaction = transactionsOf i ∨
        (i = .save ∧ es = [.cmd 0xC2#8 .err]) ∨ (i = .init ∧ es = [.ping .err]))

/-- R45, U12: the oracle is unconstrained: whatever the block has done and whatever it sends next, some oracle
gives any answer to a ping, a read, a write and a command, as one event, and the answer is then used up (R44). The
form of the environment is the model's choice (log 2), and so is running the three transactions alone (log 8). -/
def Obligations.OracleGivesAnyAnswer : Prop :=
  ∀ (s : State) (a : Ack) (r : ReadAnswer) (v : Word) (n : Nat), v.toNat ≤ 1000000 →
    let o := Environment.oracle [a] [r] n
    ((busPing { s with env := o }).1 = a ∧
      (busPing { s with env := o }).2 =
        { s with env := .oracle [] [r] (n + 1), trace := s.trace ++ [.ping a] }) ∧
    (∃ t, exec .rdFc { s with env := o } = .next t ∧
      t.trace = s.trace ++ [.read 0x41#8 4 r] ∧ t.env = .oracle [a] [] (n + 1)) ∧
    (∃ t, exec (.wrDac v) { s with env := o } = .next t ∧
      t.trace = s.trace ++ [.write 0xA0#8 (be32 v) a] ∧ t.env = .oracle [] [r] (n + 1)) ∧
    (∃ t, exec .saveFc { s with env := o } = .next t ∧
      t.trace = s.trace ++ [.cmd 0xC2#8 a] ∧ t.env = .oracle [] [r] (n + 1))

/-- R56: with the ideal device a WRCW then a RDCW read the clamped value back, and a SAVE then stores it (the
ideal device is the spec's own aid for smoke tests, decision D22; log 3). -/
def Obligations.IdealDeviceReadsBack : Prop :=
  ∀ (s : State) (v d sv : Word), s.env = .ideal d sv →
    ∃ t u x, exec (.wrcw v) s = .next t ∧ exec .rdcw t = .next u ∧ exec .save u = .next x ∧
      u.st = statusOk ∧ u.cw.toNat = min v.toNat 1000000 ∧
      x.st = statusOk ∧ x.cw = u.cw ∧ x.env = .ideal u.cw u.cw

/-! ### Failures and the whole machine -/

/-- R141, R142: every host operation ends in `Ok` or in one of the causes its row of R142 allows, with the codes
of R141 (the codes are decision D14, R142 an inference the spec marks as its own). -/
def Obligations.StatusCodesOfEachOperation : Prop :=
  statusOk = 0#3 ∧ statusOf .busUnavailable = 1#3 ∧ statusOf .shortRead = 2#3 ∧
  statusOf .outOfRange = 3#3 ∧
  ∀ (i : Instr) (s t : State), isHostOp i = true → exec i s = .next t →
    t.st = statusOk ∨ ∃ c, canRaise i c = true ∧ t.st = statusOf c

/-- R144: a failing operation leaves the Store and the rate limit; only STEER has then written the integrator, as
steps 0 and 6 leave it (its bound is D5, no rollback D7). -/
def Obligations.FailureLeavesTheRegisters : Prop :=
  ∀ (i : Instr) (s t : State), isHostOp i = true → exec i s = .next t → t.st ≠ statusOk →
    t.cw = s.cw ∧ t.cwv = s.cwv ∧ t.maxchg = s.maxchg ∧ t.maxv = s.maxv ∧
    ((∀ b pk ik, i ≠ .steer b pk ik) → t.integ = s.integ ∧ t.inti = s.inti) ∧
    (∀ b pk ik qb qi, i = .steer b pk ik → numOfBits b = some qb → numOfBits ik = some qi →
      t.integ = specInteg s qb qi ∧ t.inti = true)

/-- R29, R68, R145: no host operation reads the outputs of the one before, so a failure does not latch. -/
def Obligations.OutputsAreNeverRead : Prop :=
  ∀ (i : Instr) (s : State) (x : BitVec 3) (y : Word), isHostOp i = true →
    exec i { s with st := x, res := y } = exec i s

/-- R20's table of writers, as the frame of every instruction: which registers it can change. Three clauses are
the model's choices and no rule of the spec: that a bus transaction run alone changes no output (log 8), that no
instruction changes the list of requests (log 1), and which instructions advance the counter of free values (log 6). -/
def Obligations.RegisterWriters : Prop :=
  ∀ (i : Instr) (s t : State), exec i s = .next t →
    (t.cw ≠ s.cw ∨ t.cwv ≠ s.cwv →
      i = .rdcw ∨ (∃ v, i = .wrcw v) ∨ (∃ b pk ik, i = .steer b pk ik) ∨ i = .save ∨ i = .init) ∧
    (t.maxchg ≠ s.maxchg ∨ t.maxv ≠ s.maxv → ∃ x, i = .setmax x) ∧
    (t.integ ≠ s.integ ∨ t.inti ≠ s.inti → (∃ b pk ik, i = .steer b pk ik) ∨ i = .rsti) ∧
    (t.env ≠ s.env ∨ t.trace ≠ s.trace → transactionsOf i ≠ []) ∧
    (t.st ≠ s.st ∨ t.res ≠ s.res ∨ t.tick ≠ s.tick → isHostOp i = true) ∧
    t.requests = s.requests

/-- R26 (RSTI is decision D10, the reset input D17): `INTI` is 0 after reset; every STEER leaves it 1 whether or not its write succeeds; it is cleared
by RSTI and by reset, and by nothing else. -/
def Obligations.IntegratorFlagLifecycle : Prop :=
  State.reset.inti = false ∧
  (∀ (s t : State) (b pk ik : BitVec 64), exec (.steer b pk ik) s = .next t → t.inti = true) ∧
  (∀ s : State, ∃ t, exec .rsti s = .next t ∧ t.inti = false) ∧
  (∀ (s : State) (rest : List Request), s.requests = .reset :: rest →
    ∃ t, step s = .next t ∧ t.inti = false) ∧
  (∀ (i : Instr) (s t : State), exec i s = .next t → i ≠ .rsti → s.inti = true → t.inti = true) ∧
  (∀ s t : State, step s = .next t → s.inti = true → t.inti = false →
    (∃ rest, s.requests = .reset :: rest) ∨
    ∃ p rest, s.requests = .present p :: rest ∧ decode p = .ok .rsti)

/-- R22, R24: only reset clears the validity flags: no instruction does (the flags are decision D8). -/
def Obligations.ValidityFlagsAreNotCleared : Prop :=
  ∀ s t : State, step s = .next t →
    (s.cwv = true → t.cwv = false → ∃ rest, s.requests = .reset :: rest) ∧
    (s.maxv = true → t.maxv = false → ∃ rest, s.requests = .reset :: rest)
end

