-- ==== Sys2Proof/Laws/Config.lean ====
section
/-!
SUPPORT. Laws of Config: the hardware's constants, one lemma each (R6, R7), so that no later proof unfolds the
record. They are proved by `(rfl)`, not `rfl`, so that simp rewrites with them by congruence and the decidability
of a comparison is rewritten along.
-/

namespace Sys2Proof

@[simp] theorem Config.hw_maxControl : Config.hw.maxControl = 1000000 := (rfl)
@[simp] theorem Config.hw_rLsb : Config.hw.rLsb = 8 / 10000000000000 := (rfl)
@[simp] theorem Config.hw_ppb : Config.hw.ppb = 1 / 1000000000 := (rfl)
@[simp] theorem Config.hw_msPerS : Config.hw.msPerS = 1000 := (rfl)
@[simp] theorem Config.hw_setpoint : Config.hw.setpoint = 0 := (rfl)
@[simp] theorem Config.hw_frameBytes : Config.hw.frameBytes = 4 := (rfl)
@[simp] theorem Config.hw_raReadFc : Config.hw.raReadFc = 0x41#8 := (rfl)
@[simp] theorem Config.hw_raWriteDac : Config.hw.raWriteDac = 0xA0#8 := (rfl)
@[simp] theorem Config.hw_raSaveFc : Config.hw.raSaveFc = 0xC2#8 := (rfl)
@[simp] theorem Config.hw_integLo : Config.hw.integLo = 0 := (rfl)
@[simp] theorem Config.hw_integHi : Config.hw.integHi = 1000000 := (rfl)
@[simp] theorem Config.hw_rnd (q : Rat) : Config.hw.rnd q = q := (rfl)
@[simp] theorem Config.hw_roundMode : Config.hw.roundMode = .tiesAway := (rfl)

end Sys2Proof
end

