-- ==== Sys2Proof/Laws/State.lean ====
section
/-!
SUPPORT. Laws of State: for every update of the state that Ops and Fetch name, one lemma per field, true by
unfolding, so that no later proof unfolds a record update. Then the fields after `seed` and `unseed`, which
change the integrator's registers only.
-/

namespace Sys2Proof.Machine

/-! ### commit -/

@[simp] theorem commit_cw (v : Word) (s : State) : (commit v s).cw = v := rfl
@[simp] theorem commit_cwv (v : Word) (s : State) : (commit v s).cwv = true := rfl
@[simp] theorem commit_maxchg (v : Word) (s : State) : (commit v s).maxchg = s.maxchg := rfl
@[simp] theorem commit_maxv (v : Word) (s : State) : (commit v s).maxv = s.maxv := rfl
@[simp] theorem commit_integ (v : Word) (s : State) : (commit v s).integ = s.integ := rfl
@[simp] theorem commit_inti (v : Word) (s : State) : (commit v s).inti = s.inti := rfl
@[simp] theorem commit_st (v : Word) (s : State) : (commit v s).st = s.st := rfl
@[simp] theorem commit_res (v : Word) (s : State) : (commit v s).res = s.res := rfl
@[simp] theorem commit_trace (v : Word) (s : State) : (commit v s).trace = s.trace := rfl
@[simp] theorem commit_requests (v : Word) (s : State) : (commit v s).requests = s.requests := rfl
@[simp] theorem commit_env (v : Word) (s : State) : (commit v s).env = s.env := rfl
@[simp] theorem commit_tick (v : Word) (s : State) : (commit v s).tick = s.tick := rfl

/-! ### complete -/

@[simp] theorem complete_cw (v : Word) (s : State) : (complete v s).cw = s.cw := rfl
@[simp] theorem complete_cwv (v : Word) (s : State) : (complete v s).cwv = s.cwv := rfl
@[simp] theorem complete_maxchg (v : Word) (s : State) : (complete v s).maxchg = s.maxchg := rfl
@[simp] theorem complete_maxv (v : Word) (s : State) : (complete v s).maxv = s.maxv := rfl
@[simp] theorem complete_integ (v : Word) (s : State) : (complete v s).integ = s.integ := rfl
@[simp] theorem complete_inti (v : Word) (s : State) : (complete v s).inti = s.inti := rfl
@[simp] theorem complete_st (v : Word) (s : State) : (complete v s).st = statusOk := rfl
@[simp] theorem complete_res (v : Word) (s : State) : (complete v s).res = v := rfl
@[simp] theorem complete_trace (v : Word) (s : State) : (complete v s).trace = s.trace := rfl
@[simp] theorem complete_requests (v : Word) (s : State) : (complete v s).requests = s.requests := rfl
@[simp] theorem complete_env (v : Word) (s : State) : (complete v s).env = s.env := rfl
@[simp] theorem complete_tick (v : Word) (s : State) : (complete v s).tick = s.tick + 1 := rfl

/-! ### completeNoValue -/

@[simp] theorem completeNoValue_cw (s : State) : (completeNoValue s).cw = s.cw := rfl
@[simp] theorem completeNoValue_cwv (s : State) : (completeNoValue s).cwv = s.cwv := rfl
@[simp] theorem completeNoValue_maxchg (s : State) : (completeNoValue s).maxchg = s.maxchg := rfl
@[simp] theorem completeNoValue_maxv (s : State) : (completeNoValue s).maxv = s.maxv := rfl
@[simp] theorem completeNoValue_integ (s : State) : (completeNoValue s).integ = s.integ := rfl
@[simp] theorem completeNoValue_inti (s : State) : (completeNoValue s).inti = s.inti := rfl
@[simp] theorem completeNoValue_st (s : State) : (completeNoValue s).st = statusOk := rfl
@[simp] theorem completeNoValue_res (s : State) : (completeNoValue s).res = Config.freeRes s.tick := rfl
@[simp] theorem completeNoValue_trace (s : State) : (completeNoValue s).trace = s.trace := rfl
@[simp] theorem completeNoValue_requests (s : State) : (completeNoValue s).requests = s.requests := rfl
@[simp] theorem completeNoValue_env (s : State) : (completeNoValue s).env = s.env := rfl
@[simp] theorem completeNoValue_tick (s : State) : (completeNoValue s).tick = s.tick + 1 := rfl

/-! ### raiseFail -/

@[simp] theorem raiseFail_cw (c : Cause) (s : State) : (raiseFail c s).cw = s.cw := rfl
@[simp] theorem raiseFail_cwv (c : Cause) (s : State) : (raiseFail c s).cwv = s.cwv := rfl
@[simp] theorem raiseFail_maxchg (c : Cause) (s : State) : (raiseFail c s).maxchg = s.maxchg := rfl
@[simp] theorem raiseFail_maxv (c : Cause) (s : State) : (raiseFail c s).maxv = s.maxv := rfl
@[simp] theorem raiseFail_integ (c : Cause) (s : State) : (raiseFail c s).integ = s.integ := rfl
@[simp] theorem raiseFail_inti (c : Cause) (s : State) : (raiseFail c s).inti = s.inti := rfl
@[simp] theorem raiseFail_st (c : Cause) (s : State) : (raiseFail c s).st = statusOf c := rfl
@[simp] theorem raiseFail_res (c : Cause) (s : State) : (raiseFail c s).res = Config.freeRes s.tick := rfl
@[simp] theorem raiseFail_trace (c : Cause) (s : State) : (raiseFail c s).trace = s.trace := rfl
@[simp] theorem raiseFail_requests (c : Cause) (s : State) : (raiseFail c s).requests = s.requests := rfl
@[simp] theorem raiseFail_env (c : Cause) (s : State) : (raiseFail c s).env = s.env := rfl
@[simp] theorem raiseFail_tick (c : Cause) (s : State) : (raiseFail c s).tick = s.tick + 1 := rfl

/-! ### busPing -/

@[simp] theorem busPing_cw (s : State) : (busPing s).2.cw = s.cw := rfl
@[simp] theorem busPing_cwv (s : State) : (busPing s).2.cwv = s.cwv := rfl
@[simp] theorem busPing_maxchg (s : State) : (busPing s).2.maxchg = s.maxchg := rfl
@[simp] theorem busPing_maxv (s : State) : (busPing s).2.maxv = s.maxv := rfl
@[simp] theorem busPing_integ (s : State) : (busPing s).2.integ = s.integ := rfl
@[simp] theorem busPing_inti (s : State) : (busPing s).2.inti = s.inti := rfl
@[simp] theorem busPing_st (s : State) : (busPing s).2.st = s.st := rfl
@[simp] theorem busPing_res (s : State) : (busPing s).2.res = s.res := rfl
@[simp] theorem busPing_trace (s : State) : (busPing s).2.trace = s.trace ++ [.ping (answerPing s.env).1] := rfl
@[simp] theorem busPing_requests (s : State) : (busPing s).2.requests = s.requests := rfl
@[simp] theorem busPing_env (s : State) : (busPing s).2.env = (answerPing s.env).2 := rfl
@[simp] theorem busPing_tick (s : State) : (busPing s).2.tick = s.tick := rfl

/-! ### memRead -/

@[simp] theorem memRead_cw (ra : Byte) (s : State) : (memRead ra s).2.cw = s.cw := rfl
@[simp] theorem memRead_cwv (ra : Byte) (s : State) : (memRead ra s).2.cwv = s.cwv := rfl
@[simp] theorem memRead_maxchg (ra : Byte) (s : State) : (memRead ra s).2.maxchg = s.maxchg := rfl
@[simp] theorem memRead_maxv (ra : Byte) (s : State) : (memRead ra s).2.maxv = s.maxv := rfl
@[simp] theorem memRead_integ (ra : Byte) (s : State) : (memRead ra s).2.integ = s.integ := rfl
@[simp] theorem memRead_inti (ra : Byte) (s : State) : (memRead ra s).2.inti = s.inti := rfl
@[simp] theorem memRead_st (ra : Byte) (s : State) : (memRead ra s).2.st = s.st := rfl
@[simp] theorem memRead_res (ra : Byte) (s : State) : (memRead ra s).2.res = s.res := rfl
@[simp] theorem memRead_trace (ra : Byte) (s : State) : (memRead ra s).2.trace = s.trace ++ [.read ra 4 (answerRead s.env ra).1] := rfl
@[simp] theorem memRead_requests (ra : Byte) (s : State) : (memRead ra s).2.requests = s.requests := rfl
@[simp] theorem memRead_env (ra : Byte) (s : State) : (memRead ra s).2.env = (answerRead s.env ra).2 := rfl
@[simp] theorem memRead_tick (ra : Byte) (s : State) : (memRead ra s).2.tick = s.tick := rfl

/-! ### memWrite -/

@[simp] theorem memWrite_cw (ra : Byte) (f : Frame) (s : State) : (memWrite ra f s).2.cw = s.cw := rfl
@[simp] theorem memWrite_cwv (ra : Byte) (f : Frame) (s : State) : (memWrite ra f s).2.cwv = s.cwv := rfl
@[simp] theorem memWrite_maxchg (ra : Byte) (f : Frame) (s : State) : (memWrite ra f s).2.maxchg = s.maxchg := rfl
@[simp] theorem memWrite_maxv (ra : Byte) (f : Frame) (s : State) : (memWrite ra f s).2.maxv = s.maxv := rfl
@[simp] theorem memWrite_integ (ra : Byte) (f : Frame) (s : State) : (memWrite ra f s).2.integ = s.integ := rfl
@[simp] theorem memWrite_inti (ra : Byte) (f : Frame) (s : State) : (memWrite ra f s).2.inti = s.inti := rfl
@[simp] theorem memWrite_st (ra : Byte) (f : Frame) (s : State) : (memWrite ra f s).2.st = s.st := rfl
@[simp] theorem memWrite_res (ra : Byte) (f : Frame) (s : State) : (memWrite ra f s).2.res = s.res := rfl
@[simp] theorem memWrite_trace (ra : Byte) (f : Frame) (s : State) : (memWrite ra f s).2.trace = s.trace ++ [.write ra f (answerWrite s.env ra f).1] := rfl
@[simp] theorem memWrite_requests (ra : Byte) (f : Frame) (s : State) : (memWrite ra f s).2.requests = s.requests := rfl
@[simp] theorem memWrite_env (ra : Byte) (f : Frame) (s : State) : (memWrite ra f s).2.env = (answerWrite s.env ra f).2 := rfl
@[simp] theorem memWrite_tick (ra : Byte) (f : Frame) (s : State) : (memWrite ra f s).2.tick = s.tick := rfl

/-! ### busCmd -/

@[simp] theorem busCmd_cw (ra : Byte) (s : State) : (busCmd ra s).2.cw = s.cw := rfl
@[simp] theorem busCmd_cwv (ra : Byte) (s : State) : (busCmd ra s).2.cwv = s.cwv := rfl
@[simp] theorem busCmd_maxchg (ra : Byte) (s : State) : (busCmd ra s).2.maxchg = s.maxchg := rfl
@[simp] theorem busCmd_maxv (ra : Byte) (s : State) : (busCmd ra s).2.maxv = s.maxv := rfl
@[simp] theorem busCmd_integ (ra : Byte) (s : State) : (busCmd ra s).2.integ = s.integ := rfl
@[simp] theorem busCmd_inti (ra : Byte) (s : State) : (busCmd ra s).2.inti = s.inti := rfl
@[simp] theorem busCmd_st (ra : Byte) (s : State) : (busCmd ra s).2.st = s.st := rfl
@[simp] theorem busCmd_res (ra : Byte) (s : State) : (busCmd ra s).2.res = s.res := rfl
@[simp] theorem busCmd_trace (ra : Byte) (s : State) : (busCmd ra s).2.trace = s.trace ++ [.cmd ra (answerCmd s.env ra).1] := rfl
@[simp] theorem busCmd_requests (ra : Byte) (s : State) : (busCmd ra s).2.requests = s.requests := rfl
@[simp] theorem busCmd_env (ra : Byte) (s : State) : (busCmd ra s).2.env = (answerCmd s.env ra).2 := rfl
@[simp] theorem busCmd_tick (ra : Byte) (s : State) : (busCmd ra s).2.tick = s.tick := rfl

/-! ### readReg -/

@[simp] theorem readReg_cw (s : State) : (readReg s).2.cw = s.cw := rfl
@[simp] theorem readReg_cwv (s : State) : (readReg s).2.cwv = s.cwv := rfl
@[simp] theorem readReg_maxchg (s : State) : (readReg s).2.maxchg = s.maxchg := rfl
@[simp] theorem readReg_maxv (s : State) : (readReg s).2.maxv = s.maxv := rfl
@[simp] theorem readReg_integ (s : State) : (readReg s).2.integ = s.integ := rfl
@[simp] theorem readReg_inti (s : State) : (readReg s).2.inti = s.inti := rfl
@[simp] theorem readReg_st (s : State) : (readReg s).2.st = s.st := rfl
@[simp] theorem readReg_res (s : State) : (readReg s).2.res = s.res := rfl
@[simp] theorem readReg_trace (s : State) : (readReg s).2.trace = s.trace ++ [.read 0x41#8 4 (answerRead s.env 0x41#8).1] := rfl
@[simp] theorem readReg_requests (s : State) : (readReg s).2.requests = s.requests := rfl
@[simp] theorem readReg_env (s : State) : (readReg s).2.env = (answerRead s.env 0x41#8).2 := rfl
@[simp] theorem readReg_tick (s : State) : (readReg s).2.tick = s.tick := rfl

/-! ### accept -/

@[simp] theorem accept_cw (s : State) : (accept s).cw = s.cw := rfl
@[simp] theorem accept_cwv (s : State) : (accept s).cwv = s.cwv := rfl
@[simp] theorem accept_maxchg (s : State) : (accept s).maxchg = s.maxchg := rfl
@[simp] theorem accept_maxv (s : State) : (accept s).maxv = s.maxv := rfl
@[simp] theorem accept_integ (s : State) : (accept s).integ = s.integ := rfl
@[simp] theorem accept_inti (s : State) : (accept s).inti = s.inti := rfl
@[simp] theorem accept_st (s : State) : (accept s).st = s.st := rfl
@[simp] theorem accept_res (s : State) : (accept s).res = s.res := rfl
@[simp] theorem accept_trace (s : State) : (accept s).trace = s.trace := rfl
@[simp] theorem accept_requests (s : State) : (accept s).requests = s.requests.tail := rfl
@[simp] theorem accept_env (s : State) : (accept s).env = s.env := rfl
@[simp] theorem accept_tick (s : State) : (accept s).tick = s.tick := rfl

/-! ### presentFirst -/

@[simp] theorem presentFirst_cw (p : Presented) (s : State) : (presentFirst p s).cw = s.cw := rfl
@[simp] theorem presentFirst_cwv (p : Presented) (s : State) : (presentFirst p s).cwv = s.cwv := rfl
@[simp] theorem presentFirst_maxchg (p : Presented) (s : State) : (presentFirst p s).maxchg = s.maxchg := rfl
@[simp] theorem presentFirst_maxv (p : Presented) (s : State) : (presentFirst p s).maxv = s.maxv := rfl
@[simp] theorem presentFirst_integ (p : Presented) (s : State) : (presentFirst p s).integ = s.integ := rfl
@[simp] theorem presentFirst_inti (p : Presented) (s : State) : (presentFirst p s).inti = s.inti := rfl
@[simp] theorem presentFirst_st (p : Presented) (s : State) : (presentFirst p s).st = s.st := rfl
@[simp] theorem presentFirst_res (p : Presented) (s : State) : (presentFirst p s).res = s.res := rfl
@[simp] theorem presentFirst_trace (p : Presented) (s : State) : (presentFirst p s).trace = s.trace := rfl
@[simp] theorem presentFirst_requests (p : Presented) (s : State) : (presentFirst p s).requests = .present p :: s.requests := rfl
@[simp] theorem presentFirst_env (p : Presented) (s : State) : (presentFirst p s).env = s.env := rfl
@[simp] theorem presentFirst_tick (p : Presented) (s : State) : (presentFirst p s).tick = s.tick := rfl

/-! ### applyReset -/

@[simp] theorem applyReset_cw (s : State) : (applyReset s).cw = 0#32 := rfl
@[simp] theorem applyReset_cwv (s : State) : (applyReset s).cwv = false := rfl
@[simp] theorem applyReset_maxchg (s : State) : (applyReset s).maxchg = 0 := rfl
@[simp] theorem applyReset_maxv (s : State) : (applyReset s).maxv = false := rfl
@[simp] theorem applyReset_integ (s : State) : (applyReset s).integ = 0 := rfl
@[simp] theorem applyReset_inti (s : State) : (applyReset s).inti = false := rfl
@[simp] theorem applyReset_st (s : State) : (applyReset s).st = 0#3 := rfl
@[simp] theorem applyReset_res (s : State) : (applyReset s).res = 0#32 := rfl
@[simp] theorem applyReset_trace (s : State) : (applyReset s).trace = s.trace := rfl
@[simp] theorem applyReset_requests (s : State) : (applyReset s).requests = s.requests := rfl
@[simp] theorem applyReset_env (s : State) : (applyReset s).env = s.env := rfl
@[simp] theorem applyReset_tick (s : State) : (applyReset s).tick = s.tick := rfl

/-! ### seed and unseed -/

@[simp] theorem seed_cw (s : State) : (seed s).cw = s.cw := by unfold seed; split <;> rfl
@[simp] theorem seed_cwv (s : State) : (seed s).cwv = s.cwv := by unfold seed; split <;> rfl
@[simp] theorem seed_maxchg (s : State) : (seed s).maxchg = s.maxchg := by unfold seed; split <;> rfl
@[simp] theorem seed_maxv (s : State) : (seed s).maxv = s.maxv := by unfold seed; split <;> rfl
@[simp] theorem seed_st (s : State) : (seed s).st = s.st := by unfold seed; split <;> rfl
@[simp] theorem seed_res (s : State) : (seed s).res = s.res := by unfold seed; split <;> rfl
@[simp] theorem seed_trace (s : State) : (seed s).trace = s.trace := by unfold seed; split <;> rfl
@[simp] theorem seed_requests (s : State) : (seed s).requests = s.requests := by unfold seed; split <;> rfl
@[simp] theorem seed_env (s : State) : (seed s).env = s.env := by unfold seed; split <;> rfl
@[simp] theorem seed_tick (s : State) : (seed s).tick = s.tick := by unfold seed; split <;> rfl

@[simp] theorem unseed_cw (s : State) : (unseed s).cw = s.cw := by unfold unseed; split <;> rfl
@[simp] theorem unseed_cwv (s : State) : (unseed s).cwv = s.cwv := by unfold unseed; split <;> rfl
@[simp] theorem unseed_maxchg (s : State) : (unseed s).maxchg = s.maxchg := by unfold unseed; split <;> rfl
@[simp] theorem unseed_maxv (s : State) : (unseed s).maxv = s.maxv := by unfold unseed; split <;> rfl
@[simp] theorem unseed_st (s : State) : (unseed s).st = s.st := by unfold unseed; split <;> rfl
@[simp] theorem unseed_res (s : State) : (unseed s).res = s.res := by unfold unseed; split <;> rfl
@[simp] theorem unseed_trace (s : State) : (unseed s).trace = s.trace := by unfold unseed; split <;> rfl
@[simp] theorem unseed_requests (s : State) : (unseed s).requests = s.requests := by unfold unseed; split <;> rfl
@[simp] theorem unseed_env (s : State) : (unseed s).env = s.env := by unfold unseed; split <;> rfl
@[simp] theorem unseed_tick (s : State) : (unseed s).tick = s.tick := by unfold unseed; split <;> rfl

@[simp] theorem seed_inti (s : State) : (seed s).inti = true := by
  unfold seed
  split
  · assumption
  · rfl

theorem seed_integ (s : State) :
    (seed s).integ = if s.inti = true then s.integ else (s.cw.toNat : Rat) := by
  unfold seed
  split <;> rfl

@[simp] theorem unseed_inti (s : State) : (unseed s).inti = false := by
  unfold unseed
  split
  · rfl
  · simpa using ‹¬s.inti = true›

theorem unseed_integ (s : State) :
    (unseed s).integ = if s.inti = true then Config.freeInteg s.tick else s.integ := by
  unfold unseed
  split <;> rfl

end Sys2Proof.Machine
end

