-- ==== Sys2Proof/Laws/Ops.lean ====
section
/-!
SUPPORT. Laws of the shared operations: for each, one lemma that says everything it can do, which later proofs
cite instead of unfolding it.
-/

namespace Sys2Proof.Machine

/-- `unbe32` as a number: no wrap (R62). -/
theorem unbe32_toNat (a b c d : Byte) : (unbe32 ⟨a, b, c, d⟩).toNat =
    16777216 * a.toNat + 65536 * b.toNat + 256 * c.toNat + d.toNat := by
  simp only [unbe32, BitVec.toNat_ofNat]
  have := a.isLt
  have := b.isLt
  have := c.isLt
  have := d.isLt
  omega

/-- Byte 0 of a word that is the sum of R62. -/
theorem byte0_of_sum {v : Word} {a b c d : Byte}
    (h : v.toNat = 16777216 * a.toNat + 65536 * b.toNat + 256 * c.toNat + d.toNat) :
    v.extractLsb' 24 8 = a := by
  apply BitVec.eq_of_toNat_eq
  simp only [BitVec.extractLsb'_toNat, Nat.shiftRight_eq_div_pow]
  have := a.isLt
  have := b.isLt
  have := c.isLt
  have := d.isLt
  omega

/-- Byte 1 of a word that is the sum of R62. -/
theorem byte1_of_sum {v : Word} {a b c d : Byte}
    (h : v.toNat = 16777216 * a.toNat + 65536 * b.toNat + 256 * c.toNat + d.toNat) :
    v.extractLsb' 16 8 = b := by
  apply BitVec.eq_of_toNat_eq
  simp only [BitVec.extractLsb'_toNat, Nat.shiftRight_eq_div_pow]
  have := a.isLt
  have := b.isLt
  have := c.isLt
  have := d.isLt
  omega

/-- Byte 2 of a word that is the sum of R62. -/
theorem byte2_of_sum {v : Word} {a b c d : Byte}
    (h : v.toNat = 16777216 * a.toNat + 65536 * b.toNat + 256 * c.toNat + d.toNat) :
    v.extractLsb' 8 8 = c := by
  apply BitVec.eq_of_toNat_eq
  simp only [BitVec.extractLsb'_toNat, Nat.shiftRight_eq_div_pow]
  have := a.isLt
  have := b.isLt
  have := c.isLt
  have := d.isLt
  omega

/-- Byte 3 of a word that is the sum of R62. -/
theorem byte3_of_sum {v : Word} {a b c d : Byte}
    (h : v.toNat = 16777216 * a.toNat + 65536 * b.toNat + 256 * c.toNat + d.toNat) :
    v.extractLsb' 0 8 = d := by
  apply BitVec.eq_of_toNat_eq
  simp only [BitVec.extractLsb'_toNat, Nat.shiftRight_eq_div_pow]
  have := a.isLt
  have := b.isLt
  have := c.isLt
  have := d.isLt
  omega

/-- A read's classification is a value exactly for four bytes in range (R92). -/
theorem classifyRead_ok_iff (a : ReadAnswer) (v : Word) :
    classifyRead a = .ok v ↔ ∃ f, a = .got4 f ∧ v = unbe32 f ∧ (unbe32 f).toNat ≤ 1000000 := by
  cases a with
  | got4 f =>
    simp only [classifyRead, decodeFrame, Config.hw_maxControl]
    by_cases h : (unbe32 f).toNat ≤ 1000000
    · simp [h, eq_comm]
    · simp [h]
  | _ => simp [classifyRead]

/-- What `decodeFrame` can do (R81). -/
theorem decodeFrame_cases (f : Frame) :
    ((unbe32 f).toNat ≤ 1000000 ∧ decodeFrame f = .ok (unbe32 f)) ∨
      (1000000 < (unbe32 f).toNat ∧ decodeFrame f = .error .outOfRange) := by
  by_cases h : (unbe32 f).toNat ≤ 1000000
  · exact .inl ⟨h, by simp [decodeFrame, h]⟩
  · exact .inr ⟨by omega, by simp [decodeFrame, h]⟩

/-- `clampCW` as a number (R11). -/
theorem clampCW_toNat (v : Word) : (clampCW v).toNat = min v.toNat 1000000 := by
  by_cases h : v.toNat ≤ 1000000
  · simp [clampCW, h]
  · simp [clampCW, h]; omega

theorem clampCW_le (v : Word) : (clampCW v).toNat ≤ 1000000 := by
  rw [clampCW_toNat]; omega

theorem clampCW_of_le (v : Word) (h : v.toNat ≤ 1000000) : clampCW v = v := by
  simp [clampCW, h]

/-- READREG is the classified answer and the state after one read (R92). -/
@[simp] theorem readReg_fst (s : State) :
    (readReg s).1 = classifyRead (answerRead s.env 0x41#8).1 := rfl

/-- What the end of a read path can do (R93). -/
theorem finishRead_cases (r : Except Cause Word) (s : State) :
    (∃ v, r = .ok v ∧ finishRead r s = complete v (commit v s)) ∨
      (∃ c, r = .error c ∧ finishRead r s = raiseFail c s) := by
  cases r with
  | ok v => exact .inl ⟨v, rfl, rfl⟩
  | error c => exact .inr ⟨c, rfl, rfl⟩

/-- What the write path can do: one write event, then a commit, or a failure that leaves the Store (R94). -/
theorem writePath_cases (v : Word) (s : State) :
    ((answerWrite s.env 0xA0#8 (be32 (clampCW v))).1 = .ok ∧
        writePath v s =
          complete (clampCW v) (commit (clampCW v) (memWrite 0xA0#8 (be32 (clampCW v)) s).2)) ∨
      ((answerWrite s.env 0xA0#8 (be32 (clampCW v))).1 = .err ∧
        writePath v s = raiseFail .busUnavailable (memWrite 0xA0#8 (be32 (clampCW v)) s).2) := by
  cases h : (answerWrite s.env 0xA0#8 (be32 (clampCW v))).1
  · exact .inl ⟨rfl, by
      show finishWrite (answerWrite s.env 0xA0#8 (be32 (clampCW v))).1 _ _ = _
      rw [h]; rfl⟩
  · exact .inr ⟨rfl, by
      show finishWrite (answerWrite s.env 0xA0#8 (be32 (clampCW v))).1 _ _ = _
      rw [h]; rfl⟩

/-- What SAVE can do after its command (R130). -/
theorem saveAfterCmd_cases (a : Ack) (s : State) :
    (a = .err ∧ saveAfterCmd a s = raiseFail .busUnavailable s) ∨
      (a = .ok ∧ saveAfterCmd a s = finishRead (readReg s).1 (readReg s).2) := by
  cases a
  · exact .inr ⟨rfl, rfl⟩
  · exact .inl ⟨rfl, rfl⟩

/-- What INIT's last step can do (R132). -/
theorem finishInit_cases (first second : Except Cause Word) (s : State) :
    (∃ c, first = .error c ∧ finishInit first second s = raiseFail c s) ∨
      (∃ v c, first = .ok v ∧ second = .error c ∧ finishInit first second s = raiseFail c s) ∨
      (∃ v w, first = .ok v ∧ second = .ok w ∧
        finishInit first second s = completeNoValue (commit w s)) := by
  cases first with
  | error c => exact .inl ⟨c, rfl, rfl⟩
  | ok v =>
    cases second with
    | error c => exact .inr (.inl ⟨v, c, rfl, rfl, rfl⟩)
    | ok w => exact .inr (.inr ⟨v, w, rfl, rfl, rfl⟩)

/-- What INIT can do after its ping (R132). -/
theorem initAfterPing_cases (a : Ack) (s : State) :
    (a = .err ∧ initAfterPing a s = raiseFail .busUnavailable s) ∨
      (a = .ok ∧ initAfterPing a s =
        finishInit (readReg s).1 (readReg (readReg s).2).1 (readReg (readReg s).2).2) := by
  cases a
  · exact .inr ⟨rfl, rfl⟩
  · exact .inl ⟨rfl, rfl⟩

/-- When the flags forbid a STEER (R102). -/
theorem steerBlocked_none_iff (s : State) : steerBlocked s = none ↔ steerReady s := by
  unfold steerBlocked steerReady
  cases s.maxv <;> cases s.inti <;> cases s.cwv <;> simp

/-- A STEER that answers a next state was ready, had three numbers, and ran (R102). -/
theorem steerNumbers_next {c : Config} {b pk ik : Option Rat} {s t : State}
    (h : steerNumbers c b pk ik s = .next t) :
    ∃ b' pk' ik', b = some b' ∧ pk = some pk' ∧ ik = some ik' ∧ steerReady s ∧
      t = steerRun c b' pk' ik' s := by
  unfold steerNumbers at h
  split at h
  · simp at h
  · split at h
    · simp only [Host.Outcome.next.injEq] at h
      exact ⟨_, _, _, rfl, rfl, rfl, (steerBlocked_none_iff s).1 (by assumption), h.symm⟩
    · simp at h

/-- A STEER that is ready and has three numbers runs (R102). -/
theorem steerNumbers_ready {c : Config} {b pk ik : Rat} {s : State} (h : steerReady s) :
    steerNumbers c (some b) (some pk) (some ik) s = .next (steerRun c b pk ik s) := by
  unfold steerNumbers
  rw [(steerBlocked_none_iff s).2 h]

/-- A word that saturates in the integers is a legal control word (R110). -/
theorem saturateCW_le (n : Int) : (saturateCW Config.hw n).toNat ≤ 1000000 := by
  simp only [saturateCW, clamp, Config.hw_maxControl, BitVec.toNat_ofNat]
  omega

/-- `clamp` lands between its bounds (R11). -/
theorem le_clamp {α : Type} [LinearOrder α] (x : α) {lo hi : α} (h : lo ≤ hi) : lo ≤ clamp x lo hi :=
  le_min (le_max_right x lo) h

theorem clamp_le {α : Type} [LinearOrder α] (x lo hi : α) : clamp x lo hi ≤ hi := min_le_right _ _

/-- Inside its bounds `clamp` changes nothing (R11). -/
theorem clamp_of_mem {α : Type} [LinearOrder α] {x lo hi : α} (h1 : lo ≤ x) (h2 : x ≤ hi) :
    clamp x lo hi = x := by
  simp [clamp, h1, h2]

/-- What a step can do. -/
theorem step_cases {s t : State} (h : step s = .next t) :
    (s.requests = [] ∧ t = s) ∨
      (∃ rest, s.requests = .reset :: rest ∧ t = applyReset (accept s)) ∨
      (∃ p rest i, s.requests = .present p :: rest ∧ decode p = .ok i ∧
        exec i (accept s) = .next t) := by
  unfold step at h
  split at h
  · simp only [Host.Outcome.next.injEq] at h
    exact .inl ⟨by assumption, h.symm⟩
  · simp only [Host.Outcome.next.injEq] at h
    exact .inr (.inl ⟨_, by assumption, h.symm⟩)
  · split at h
    · exact .inr (.inr ⟨_, _, _, by assumption, by assumption, h⟩)
    · simp at h

end Sys2Proof.Machine
end

