-- ==== Sys2Proof/Laws/Exec.lean ====
section
/-!
SUPPORT. Laws of the meanings: for every instruction, one inversion lemma that says everything it can do when it
answers a next state, over the shared operations. Invariants and frames are derived from these.
-/

namespace Sys2Proof.Machine

theorem execDec_cases {image : Word} {s t : State} (h : exec (.dec image) s = .next t) :
    (∃ v, decodeFrame (frameOfImage image) = .ok v ∧ t = complete v s) ∨
      t = raiseFail .outOfRange s := by
  simp only [exec, execDec, Host.Outcome.next.injEq] at h
  rcases decodeFrame_cases (frameOfImage image) with ⟨_, hd⟩ | ⟨_, hd⟩ <;> rw [hd] at h
  · exact .inl ⟨_, hd, h.symm⟩
  · exact .inr h.symm

theorem execEnc_cases {v : Word} {s t : State} (h : exec (.enc v) s = .next t) :
    t = complete (imageOfFrame (encodeFrame v)) s := by
  simpa [exec, execEnc, eq_comm] using h

theorem execGetcw_cases {s t : State} (h : exec .getcw s = .next t) :
    s.cwv = true ∧ t = complete s.cw s := by
  simp only [exec, execGetcw] at h
  split at h
  · simp only [Host.Outcome.next.injEq] at h
    exact ⟨by assumption, h.symm⟩
  · simp at h

/-- What the end of a read path leaves, from the classified answer (R92, R93, R130). -/
theorem finishRead_readReg_cases (s : State) :
    (∃ f, (answerRead s.env 0x41#8).1 = .got4 f ∧ (unbe32 f).toNat ≤ 1000000 ∧
        finishRead (readReg s).1 (readReg s).2 =
          complete (unbe32 f) (commit (unbe32 f) (readReg s).2)) ∨
      (∃ c, finishRead (readReg s).1 (readReg s).2 = raiseFail c (readReg s).2) := by
  rcases finishRead_cases (readReg s).1 (readReg s).2 with ⟨v, hv, h⟩ | ⟨c, _, h⟩
  · obtain ⟨f, ha, rfl, hf⟩ := (classifyRead_ok_iff _ _).1 hv
    exact .inl ⟨f, ha, hf, h⟩
  · exact .inr ⟨c, h⟩

theorem execRdcw_cases {s t : State} (h : exec .rdcw s = .next t) :
    (∃ f, (answerRead s.env 0x41#8).1 = .got4 f ∧ (unbe32 f).toNat ≤ 1000000 ∧
        t = complete (unbe32 f) (commit (unbe32 f) (readReg s).2)) ∨
      (∃ c, t = raiseFail c (readReg s).2) := by
  simp only [exec, execRdcw, Host.Outcome.next.injEq] at h
  subst h
  exact finishRead_readReg_cases s

theorem execWrcw_cases {v : Word} {s t : State} (h : exec (.wrcw v) s = .next t) :
    ((answerWrite s.env 0xA0#8 (be32 (clampCW v))).1 = .ok ∧
        t = complete (clampCW v) (commit (clampCW v) (memWrite 0xA0#8 (be32 (clampCW v)) s).2)) ∨
      ((answerWrite s.env 0xA0#8 (be32 (clampCW v))).1 = .err ∧
        t = raiseFail .busUnavailable (memWrite 0xA0#8 (be32 (clampCW v)) s).2) := by
  simp only [exec, execWrcw, Host.Outcome.next.injEq] at h
  subst h
  exact writePath_cases v s

/-- STEER after its preconditions: the seeded state with the advanced integrator, then the write path (R102). -/
theorem execSteer_cases {b pk ik : BitVec 64} {s t : State}
    (h : exec (.steer b pk ik) s = .next t) :
    ∃ qb qp qi, numOfBits b = some qb ∧ numOfBits pk = some qp ∧ numOfBits ik = some qi ∧
      steerReady s ∧ t = steerRun Config.hw qb qp qi s := by
  simp only [exec, execSteer] at h
  obtain ⟨qb, qp, qi, h1, h2, h3, h4, h5⟩ := steerNumbers_next h
  exact ⟨qb, qp, qi, h1, h2, h3, h4, h5⟩

theorem execSave_cases {s t : State} (h : exec .save s = .next t) :
    ((answerCmd s.env 0xC2#8).1 = .err ∧ t = raiseFail .busUnavailable (busCmd 0xC2#8 s).2) ∨
      ((answerCmd s.env 0xC2#8).1 = .ok ∧
        ((∃ f, (answerRead (answerCmd s.env 0xC2#8).2 0x41#8).1 = .got4 f ∧
            (unbe32 f).toNat ≤ 1000000 ∧
            t = complete (unbe32 f) (commit (unbe32 f) (readReg (busCmd 0xC2#8 s).2).2)) ∨
          (∃ c, t = raiseFail c (readReg (busCmd 0xC2#8 s).2).2))) := by
  simp only [exec, execSave, Host.Outcome.next.injEq, Config.hw_raSaveFc] at h
  subst h
  rcases saveAfterCmd_cases (busCmd 0xC2#8 s).1 (busCmd 0xC2#8 s).2 with ⟨ha, h⟩ | ⟨ha, h⟩
  · exact .inl ⟨ha, h⟩
  · rw [h]
    exact .inr ⟨ha, finishRead_readReg_cases (busCmd 0xC2#8 s).2⟩

theorem execInit_cases {s t : State} (h : exec .init s = .next t) :
    ((answerPing s.env).1 = .err ∧ t = raiseFail .busUnavailable (busPing s).2) ∨
      ((answerPing s.env).1 = .ok ∧
        ((∃ f, (answerRead (readReg (busPing s).2).2.env 0x41#8).1 = .got4 f ∧
            (unbe32 f).toNat ≤ 1000000 ∧
            t = completeNoValue (commit (unbe32 f) (readReg (readReg (busPing s).2).2).2)) ∨
          (∃ c, t = raiseFail c (readReg (readReg (busPing s).2).2).2))) := by
  simp only [exec, execInit, Host.Outcome.next.injEq] at h
  subst h
  rcases initAfterPing_cases (busPing s).1 (busPing s).2 with ⟨ha, h⟩ | ⟨ha, h⟩
  · exact .inl ⟨ha, h⟩
  · refine .inr ⟨ha, ?_⟩
    rw [h]
    rcases finishInit_cases (readReg (busPing s).2).1 (readReg (readReg (busPing s).2).2).1
      (readReg (readReg (busPing s).2).2).2 with ⟨c, _, h⟩ | ⟨_, c, _, _, h⟩ | ⟨_, w, _, hw, h⟩
    · exact .inr ⟨c, h⟩
    · exact .inr ⟨c, h⟩
    · obtain ⟨f, hf, rfl, hl⟩ := (classifyRead_ok_iff _ _).1 hw
      exact .inl ⟨f, hf, hl, h⟩

theorem execSetmax_cases {x : BitVec 64} {s t : State} (h : exec (.setmax x) s = .next t) :
    ∃ q, numOfBits x = some q ∧ 0 ≤ q ∧ t = completeNoValue { s with maxchg := q, maxv := true } := by
  simp only [exec, execSetmax, setmaxNumber] at h
  split at h
  · simp at h
  · split at h
    · simp at h
    · simp only [Host.Outcome.next.injEq] at h
      exact ⟨_, by assumption, not_lt.1 (by assumption), h.symm⟩

/-- A STEER of a line is the STEER of any patterns that denote its decimals (R67 c, R71). -/
theorem execText_steer {b pk ik : BitVec 64} {qb qp qi : Rat} (s : State)
    (hb : numOfBits b = some qb) (hp : numOfBits pk = some qp) (hi : numOfBits ik = some qi) :
    execText (.steer qb qp qi) s = exec (.steer b pk ik) s := by
  rw [execText, exec, execSteer, hb, hp, hi]

/-- A SETMAX of a line is the SETMAX of any pattern that denotes its decimal (R67 c, R71). -/
theorem execText_setmax {x : BitVec 64} {q : Rat} (s : State) (h : numOfBits x = some q) :
    execText (.setmax q) s = exec (.setmax x) s := by
  rw [execText, exec, execSetmax, h]

theorem execRsti_cases {s t : State} (h : exec .rsti s = .next t) :
    t = completeNoValue (unseed s) := by
  simpa [exec, execRsti, eq_comm] using h

theorem execRdFc_cases {s t : State} (h : exec .rdFc s = .next t) :
    t = (memRead 0x41#8 s).2 := by
  simpa [exec, execRdFc, eq_comm] using h

theorem execWrDac_cases {v : Word} {s t : State} (h : exec (.wrDac v) s = .next t) :
    v.toNat ≤ 1000000 ∧ t = (memWrite 0xA0#8 (be32 v) s).2 := by
  simp only [exec, execWrDac] at h
  split at h
  · simp only [Host.Outcome.next.injEq] at h
    exact ⟨by assumption, h.symm⟩
  · simp at h

theorem execSaveFc_cases {s t : State} (h : exec .saveFc s = .next t) :
    t = (busCmd 0xC2#8 s).2 := by
  simpa [exec, execSaveFc, eq_comm] using h

/-- STEER's run, over the write path's two ends (R111, R112): the word, and the state the write starts from. -/
theorem steerRun_cases (c : Config) (b pk ik : Rat) (s : State) :
    let r := steerSteps c s.maxchg (seed s).integ b pk ik
    let s1 : State := { seed s with integ := r.integ }
    ((answerWrite s.env 0xA0#8 (be32 (clampCW r.w))).1 = .ok ∧
        steerRun c b pk ik s =
          complete (clampCW r.w) (commit (clampCW r.w) (memWrite 0xA0#8 (be32 (clampCW r.w)) s1).2)) ∨
      ((answerWrite s.env 0xA0#8 (be32 (clampCW r.w))).1 = .err ∧
        steerRun c b pk ik s =
          raiseFail .busUnavailable (memWrite 0xA0#8 (be32 (clampCW r.w)) s1).2) := by
  intro r s1
  have h := writePath_cases r.w s1
  have he : s1.env = s.env := seed_env s
  rw [he] at h
  have hr : steerRun c b pk ik s = writePath r.w s1 := by
    simp only [steerRun, seed_maxchg, r, s1]
  rw [hr]
  exact h

end Sys2Proof.Machine
end

