-- ==== Sys2Proof/Laws/PerInstr.lean ====
section
/-!
SUPPORT. Per-instruction laws: the family EncodedForm, one lemma per constructor of Instr. It says which row of the
opcode table an encoded instruction is: its selector (R66), or its address byte (R63).
-/

namespace Sys2Proof.Laws.EncodedForm

/-- The selector of a presented host operation. -/
def selectorIs (op : BitVec 4) : Presented → Prop
  | .hostOp w => w.op = op
  | .bus _ => False

/-- The address byte of a presented bus transaction and the number of bytes it sends. -/
def transactionIs (ra : Byte) (length : Nat) : Presented → Prop
  | .hostOp _ => False
  | .bus bytes => bytes.head? = some ra ∧ bytes.length = length

/-- The encoding of an instruction stands in its own row of the opcode table. -/
def Statement : Instr → Prop
  | .dec image => selectorIs 0x1#4 (encode (.dec image))
  | .enc v => selectorIs 0x2#4 (encode (.enc v))
  | .getcw => selectorIs 0x3#4 (encode .getcw)
  | .rdcw => selectorIs 0x4#4 (encode .rdcw)
  | .wrcw v => selectorIs 0x5#4 (encode (.wrcw v))
  | .steer b pk ik => selectorIs 0x6#4 (encode (.steer b pk ik))
  | .save => selectorIs 0x7#4 (encode .save)
  | .init => selectorIs 0x8#4 (encode .init)
  | .setmax x => selectorIs 0x9#4 (encode (.setmax x))
  | .rsti => selectorIs 0xB#4 (encode .rsti)
  | .rdFc => transactionIs 0x41#8 1 (encode .rdFc)
  | .wrDac v => transactionIs 0xA0#8 5 (encode (.wrDac v))
  | .saveFc => transactionIs 0xC2#8 1 (encode .saveFc)

theorem dec (image : Word) : Statement (.dec image) := rfl
theorem enc (v : Word) : Statement (.enc v) := rfl
theorem getcw : Statement .getcw := rfl
theorem rdcw : Statement .rdcw := rfl
theorem wrcw (v : Word) : Statement (.wrcw v) := rfl
theorem steer (b pk ik : BitVec 64) : Statement (.steer b pk ik) := rfl
theorem save : Statement .save := rfl
theorem init : Statement .init := rfl
theorem setmax (x : BitVec 64) : Statement (.setmax x) := rfl
theorem rsti : Statement .rsti := rfl
theorem rdFc : Statement .rdFc := ⟨rfl, rfl⟩
theorem wrDac (v : Word) : Statement (.wrDac v) := ⟨rfl, rfl⟩
theorem saveFc : Statement .saveFc := ⟨rfl, rfl⟩

end Sys2Proof.Laws.EncodedForm
end

