-- ==== Sys2Proof/Tests/Slice0.lean ====
section
/-!
SUPPORT. Tests: the smoke test of WellFormed; a word written out from the spec's encoding for every constructor;
single steps whose expected results are rows of 95_test_vectors.md (named in each comment); and for every obligation
that has hypotheses, a named witness that meets them.
-/

namespace Sys2Proof.Tests

open Sys2Proof.Machine

/-! ### Helpers -/

/-- The next state of an instruction, if it answers one. -/
def ran (i : Instr) (s : State) : Option State :=
  match exec i s with
  | .next t => some t
  | .fault _ => none
  | .refused _ => none

/-- The next state of a step, if it answers one. -/
def stepped (s : State) : Option State :=
  match step s with
  | .next t => some t
  | .fault _ => none
  | .refused _ => none

/-- The refusal of an instruction, if it is refused. -/
def refusal (i : Instr) (s : State) : Option Refusal :=
  match exec i s with
  | .next _ => none
  | .fault _ => none
  | .refused r => some r

/-- A state with a committed cache and scripted answers. -/
def cached (v : Word) (acks : List Ack) (reads : List ReadAnswer) : State :=
  { State.reset with cw := v, cwv := true, env := .oracle acks reads 0 }

/-- The state of V-S9c: `CW = 500000`, `MAXCHG = 0.25`, not seeded. -/
def quarter (acks : List Ack) : State :=
  { cached 500000#32 acks [] with maxchg := 1 / 4, maxv := true }

/-- The state of V-S10: `CW = 500000`, `MAXCHG = 3`, not seeded. -/
def three (acks : List Ack) : State :=
  { cached 500000#32 acks [] with maxchg := 3, maxv := true }

/-- The state before V-M6's RSTI: seeded. -/
def seeded : State :=
  { three [] with integ := 496250, inti := true }

/-- An event list's transactions. -/
def transactions (s : State) : List Transaction := s.trace.map BusEvent.transaction

/-! ### WellFormed -/

theorem test_wf_accepts_maximum : (Instr.wrDac 1000000#32).wf = true := by decide
theorem test_wf_refuses_above_maximum : (Instr.wrDac 1000001#32).wf = false := by decide

/-! ### Decoding: words written out from R63, R65, R66, R67 -/

theorem test_decode_dec :
    decode (.hostOp ⟨0b0001#4, 0xFFFFFFFF0007A120#64, 1#64, 2#64⟩) = .ok (.dec 0x0007A120#32) := by decide
theorem test_decode_enc :
    decode (.hostOp ⟨0b0010#4, 0x0000000080000000#64, 0#64, 0#64⟩) = .ok (.enc 0x80000000#32) := by decide
theorem test_decode_getcw : decode (.hostOp ⟨0b0011#4, 5#64, 6#64, 7#64⟩) = .ok .getcw := by decide
theorem test_decode_rdcw : decode (.hostOp ⟨0b0100#4, 0#64, 0#64, 0#64⟩) = .ok .rdcw := by decide
theorem test_decode_wrcw :
    decode (.hostOp ⟨0b0101#4, 0x00000000000927C0#64, 0#64, 0#64⟩) = .ok (.wrcw 600000#32) := by decide
theorem test_decode_steer :
    decode (.hostOp ⟨0b0110#4, 0xBFF0000000000000#64, 0x408F400000000000#64, 0x3FD0000000000000#64⟩) =
      .ok (.steer 0xBFF0000000000000#64 0x408F400000000000#64 0x3FD0000000000000#64) := by decide
theorem test_decode_save : decode (.hostOp ⟨0b0111#4, 0#64, 0#64, 0#64⟩) = .ok .save := by decide
theorem test_decode_init : decode (.hostOp ⟨0b1000#4, 0#64, 0#64, 0#64⟩) = .ok .init := by decide
theorem test_decode_setmax :
    decode (.hostOp ⟨0b1001#4, 0x4008000000000000#64, 0#64, 0#64⟩) =
      .ok (.setmax 0x4008000000000000#64) := by decide
theorem test_decode_rsti : decode (.hostOp ⟨0b1011#4, 0#64, 0#64, 0#64⟩) = .ok .rsti := by decide
theorem test_decode_rd_fc : decode (.bus [0b01000001#8]) = .ok .rdFc := by decide
theorem test_decode_wr_dac :
    decode (.bus [0b10100000#8, 0x00#8, 0x0F#8, 0x33#8, 0x9A#8]) = .ok (.wrDac 996250#32) := by decide
theorem test_decode_save_fc : decode (.bus [0b11000010#8]) = .ok .saveFc := by decide

/-- V-R7: the six unassigned selectors are rejected by name (R69 d). -/
theorem test_decode_unassigned :
    [0x0#4, 0xA#4, 0xC#4, 0xD#4, 0xE#4, 0xF#4].all
      (fun op => decide (decodeHost ⟨op, 0#64, 0#64, 0#64⟩ = .error (.unassignedSelector op))) = true := by
  decide

/-- R63, R69 g: another register address, a write with one byte missing, a write above the maximum. -/
theorem test_decode_not_a_transaction :
    decode (.bus [0x40#8]) = .error (.notABusTransaction [0x40#8]) ∧
    decode (.bus [0xA0#8, 0#8, 0#8, 0#8]) = .error (.notABusTransaction [0xA0#8, 0#8, 0#8, 0#8]) ∧
    decode (.bus [0xA0#8, 0x00#8, 0x0F#8, 0x42#8, 0x41#8]) =
      .error (.notABusTransaction [0xA0#8, 0x00#8, 0x0F#8, 0x42#8, 0x41#8]) := by decide

/-- The rows of the opcode table by their bits (log 16). -/
theorem test_table_words :
    [1, 2, 3, 4, 5, 6, 7, 8, 9, 11].map (decodeTableWord 4) =
      [some (.dec 0#32), some (.enc 0#32), some .getcw, some .rdcw, some (.wrcw 0#32),
        some (.steer 0#64 0#64 0#64), some .save, some .init, some (.setmax 0#64), some .rsti] ∧
    decodeTableWord 8 0x41 = some .rdFc ∧ decodeTableWord 8 0xC2 = some .saveFc ∧
    decodeTableWord 40 0xA0 = some (.wrDac 0#32) ∧
    decodeTableWord 40 0xA000000000 = some (.wrDac 0#32) := by decide

/-! ### Operand formats -/

/-- The exact patterns of the table in 95_test_vectors.md section 2.4, and negative zero (V-M5). -/
theorem test_num_patterns :
    numOfBits 0x4008000000000000#64 = some 3 ∧ numOfBits 0xC01C000000000000#64 = some (-7) ∧
    numOfBits 0x408F400000000000#64 = some 1000 ∧ numOfBits 0x3FD0000000000000#64 = some (1 / 4) ∧
    numOfBits 0x8000000000000000#64 = some 0 := by decide +kernel

/-- V-M4: infinity and not-a-number denote no number; the smallest positive pattern is `2^(−1074)` (R67 c). -/
theorem test_num_edges :
    numOfBits 0x7FF0000000000000#64 = none ∧ numOfBits 0x7FF8000000000000#64 = none ∧
    numOfBits 0x0000000000000001#64 = some (1 / 2 ^ 1074) := by decide +kernel

/-- "slightly above" and "slightly below" of the same table. -/
theorem test_num_inexact :
    (numOfBits 0x3F3A36E2EB1C432D#64).any (fun q => decide (4 / 10000 < q)) = true ∧
    (numOfBits 0x3FD3333333333333#64).any (fun q => decide (q < 3 / 10)) = true := by decide +kernel

/-! ### One step each, from 95_test_vectors.md -/

/-- V-C24: the bytes of 500 000 in the wrong order are out of range. -/
theorem test_dec_byte_order : (ran (.dec 0x20A10700#32) State.reset).map (·.st) = some 3#3 := by decide
/-- V-C20. -/
theorem test_dec_bound :
    (ran (.dec 0x000F4240#32) State.reset).map (fun t => (t.st, t.res)) = some (0#3, 1000000#32) := by decide
/-- V-C14. -/
theorem test_enc_unsigned :
    (ran (.enc 0x80000000#32) State.reset).map (fun t => (t.st, t.res)) = some (0#3, 0x000F4240#32) := by
  decide
/-- V-C6. -/
theorem test_enc_bytes : (ran (.enc 65536#32) State.reset).map (·.res) = some 0x00010000#32 := by decide
/-- V-T2. -/
theorem test_getcw : (ran .getcw (cached 500000#32 [] [])).map (fun t => (t.st, t.res)) =
    some (0#3, 0x0007A120#32) := by decide
/-- V-T1, V-R1. -/
theorem test_getcw_refused : refusal .getcw State.reset = some .cacheNeverWritten := by decide
/-- V-T6. -/
theorem test_rdcw_out_of_range :
    (ran .rdcw (cached 1000000#32 [] [.got4 ⟨0x00#8, 0x0F#8, 0x42#8, 0x41#8⟩])).map
      (fun t => (t.st, t.cw, t.cwv)) = some (3#3, 1000000#32, true) := by decide
/-- V-T9. -/
theorem test_rdcw_no_bytes :
    (ran .rdcw { State.reset with env := .oracle [] [.got0] 0 }).map (fun t => (t.st, t.cwv)) =
      some (2#3, false) := by decide
/-- V-T3. -/
theorem test_wrcw_clamps :
    (ran (.wrcw 1500000#32) { State.reset with env := .oracle [.ok] [] 0 }).map
      (fun t => (t.res, t.cw, t.cwv, t.trace)) = some (1000000#32, 1000000#32, true,
        [.write 0xA0#8 ⟨0x00#8, 0x0F#8, 0x42#8, 0x40#8⟩ .ok]) := by decide
/-- V-T4. -/
theorem test_wrcw_failure :
    (ran (.wrcw 7#32) (cached 1000000#32 [.err] [])).map (fun t => (t.st, t.cw, t.trace)) =
      some (1#3, 1000000#32, [.write 0xA0#8 ⟨0x00#8, 0x00#8, 0x00#8, 0x07#8⟩ .err]) := by decide
/-- V-S9c: a tie, away from zero; all operands exact in binary64. -/
theorem test_steer_tie :
    (ran (.steer 0xBFF0000000000000#64 0x3FF0000000000000#64 0#64) (quarter [.ok])).map
      (fun t => (t.res, t.cw, t.integ, t.inti, t.trace)) = some (500313#32, 500313#32, 500000, true,
        [.write 0xA0#8 ⟨0x00#8, 0x07#8, 0xA2#8, 0x59#8⟩ .ok]) := by decide +kernel
/-- V-S10 at the bit level: the failed write keeps the advanced integrator. -/
theorem test_steer_failed_write :
    (ran (.steer 0x3F2A36E2EB1C432D#64 0x3FF0000000000000#64 0x3FF0000000000000#64) (three [.err])).map
      (fun t => (t.st, t.cw, t.integ, t.inti, t.trace)) = some (1#3, 500000#32, 496250, true,
        [.write 0xA0#8 ⟨0x00#8, 0x07#8, 0x83#8, 0xD4#8⟩ .err]) := by decide +kernel
/-- V-S13: the intermediates, in the exact decimals of the row. -/
theorem test_steer_intermediates :
    let r := steerSteps Config.hw 3 500000 (3 / 10000000) (3 / 10) (1 / 100)
    r.req = -375 ∧ r.m = 3750 ∧ r.p = -1125 / 10 ∧ r.dI = -375 / 100 ∧ r.integ = 49999625 / 100 ∧
      r.n = 499884 := by decide +kernel
/-- V-S7b: a negative sum saturates to 0 and does not wrap. -/
theorem test_steer_negative_sum :
    let r := steerSteps Config.hw 3 0 1 1 0
    r.n = -3750 ∧ r.w = 0#32 := by decide +kernel
/-- V-P5. -/
theorem test_save_reads_back :
    (ran .save (cached 42#32 [.ok] [.got4 ⟨0x00#8, 0x07#8, 0x92#8, 0x7A#8⟩])).map
      (fun t => (t.st, t.res, t.cw, transactions t)) =
      some (0#3, 496250#32, 496250#32, [.saveFc, .rdFc]) := by decide
/-- V-P1. -/
theorem test_save_refused_command :
    (ran .save (cached 42#32 [.err] [.got0])).map (fun t => (t.st, t.cw, transactions t)) =
      some (1#3, 42#32, [.saveFc]) := by decide
/-- V-I6. -/
theorem test_init_second_value :
    (ran .init (cached 42#32 [.ok] [.got4 ⟨0#8, 0#8, 0#8, 1#8⟩, .got4 ⟨0#8, 0#8, 0#8, 2#8⟩])).map
      (fun t => (t.st, t.cw, transactions t)) = some (0#3, 2#32, [.ping, .rdFc, .rdFc]) := by decide
/-- V-I4: the first read's cause. -/
theorem test_init_first_cause :
    (ran .init (cached 42#32 [.ok]
      [.got3 0x00#8 0x07#8 0xA1#8, .got4 ⟨0x00#8, 0x0F#8, 0x42#8, 0x41#8⟩])).map
      (fun t => (t.st, t.cw, transactions t)) = some (2#3, 42#32, [.ping, .rdFc, .rdFc]) := by decide
/-- V-M1. -/
theorem test_setmax :
    (ran (.setmax 0x4008000000000000#64) State.reset).map (fun t => (t.st, t.maxchg, t.maxv)) =
      some (0#3, 3, true) := by decide +kernel
/-- V-M3. -/
theorem test_setmax_negative :
    refusal (.setmax 0xBFF0000000000000#64) State.reset = some .negativeRateLimit := by decide +kernel
/-- V-M6. -/
theorem test_rsti : (ran .rsti seeded).map (fun t => (t.st, t.inti, t.cw, t.maxv, t.trace)) =
    some (0#3, false, 500000#32, true, []) := by decide
/-- V-M7: no register changes at reset. -/
theorem test_rsti_at_reset :
    (ran .rsti State.reset).map (fun t => (t.inti, t.integ, t.cwv)) = some (false, 0, false) := by decide
/-- R63, R43: one command, one event. -/
theorem test_save_fc : (ran .saveFc (cached 1#32 [.err] [])).map (·.trace) =
    some [.cmd 0xC2#8 .err] := by decide
/-- R63, R41. -/
theorem test_rd_fc : (ran .rdFc (cached 1#32 [] [.got1 9#8])).map (fun t => (t.cw, t.trace)) =
    some (1#32, [.read 0x41#8 4 (.got1 9#8)]) := by decide
/-- R63, R42: the frame of 996 250 (95_test_vectors.md section 0). -/
theorem test_wr_dac : (ran (.wrDac 996250#32) (cached 1#32 [.ok] [])).map (fun t => (t.cw, t.trace)) =
    some (1#32, [.write 0xA0#8 ⟨0x00#8, 0x0F#8, 0x33#8, 0x9A#8⟩ .ok]) := by decide

/-- V-R3, V-R4, V-R6. -/
theorem test_steer_refusals :
    refusal (.steer 0#64 0#64 0#64) { State.reset with maxchg := 3, maxv := true } =
      some .cacheNeverWritten ∧
    refusal (.steer 0#64 0#64 0#64) (cached 500000#32 [] []) = some .rateLimitNeverWritten ∧
    refusal (.steer 0#64 0x7FF8000000000000#64 0#64) (three []) = some .operandNotANumber := by
  decide +kernel

/-- V-R5: a seeded integrator does not need the cache. -/
theorem test_steer_needs_no_cache_once_seeded :
    (ran (.steer 0#64 0#64 0#64)
      { State.reset with
        maxchg := 3, maxv := true, integ := 500000, inti := true, env := .oracle [.ok] [] 0 }).map (fun t => (t.st, t.cw)) = some (0#3, 500000#32) := by decide +kernel

/-- From reset with nothing placed the block stands ready (log 1). -/
theorem test_step_idle : stepped State.reset = some State.reset := by decide
/-- A placed instruction is the first to run: P2 line 1 (log 1). -/
theorem test_step_placed :
    (stepped (({ State.reset with env := .oracle [.ok] [] 0 } : State).withFetchWord 196 (5 + 1500000 * 2 ^ 4))).map
      (fun t => (t.res, t.cw)) = some (1000000#32, 1000000#32) := by decide

/-- R71: V-T5 and V-C21 as the notation of 95_test_vectors.md writes them. -/
theorem test_text :
    lineText .rdcw [.read 0x41#8 4 (.got3 0x00#8 0x0F#8 0x42#8)] = some "RDCW | 00 0F 42".toList ∧
    lineText (.dec 0x000F4241#32) [] = some "DEC 00 0F 42 41".toList ∧
    instrText (.setmax 0xBFF0000000000000#64) = some "SETMAX -1".toList := by decide +kernel

/-- R71: the numeral forms, the hexadecimal form of a word, a comment, a read of no bytes, and texts that are none. -/
theorem test_text_read :
    readWord "0x16E360".toList = some 1500000#32 ∧ readWord "4294967296".toList = none ∧
    readNum "1.2.3".toList = none ∧ readNum "200E-6".toList = none ∧ readNum "".toList = none ∧
    readLine "RDCW | - ; no bytes".toList = some (.instr .rdcw, [.bytes []]) ∧
    readLine "SETMAX -1".toList = some (.setmax (-1), []) ∧ readLine "COMMIT 5".toList = none := by
  decide +kernel

/-- No answer: an empty text, five bytes (log 27). -/
theorem test_text_no_answer :
    readLine "RDCW |".toList = none ∧ readLine "INIT | ok, , 00 07 A1 20".toList = none ∧
    readLine "RDCW | 00 00 00 00 00".toList = none ∧
    readLine "RDCW | 00 0F 42".toList = some (.instr .rdcw, [.bytes [0x00#8, 0x0F#8, 0x42#8]]) := by
  decide +kernel

/-- V-S9b, in the exact decimals of its row: the tie below is rounded to 10. -/
theorem test_text_exact_tie :
    (match readLine "STEER 1, 1, 0 | ok".toList with
      | some (op, _) =>
        match execText op { cached 11#32 [.ok] [] with
          maxchg := 4 / 10000, maxv := true, integ := 10, inti := true } with
        | .next t => some (t.st, t.res, t.cw)
        | _ => none
      | none => none) = some (0#3, 10#32, 10#32) := by decide +kernel

/-! ### Witnesses: each obligation's hypotheses are met -/

theorem witness_WriteDataStartsWithZero : (1000000#32 : Word).toNat ≤ 1000000 := by decide
theorem witness_DecodeOfEncode : (Instr.wrDac 1000000#32).wf = true ∧ Instr.save.wf = true := by decide
theorem witness_DecodedWordsAreWellFormed :
    decode (.bus [0xA0#8, 0x00#8, 0x0F#8, 0x42#8, 0x40#8]) = .ok (.wrDac 1000000#32) ∧
    decode (.hostOp ⟨0xB#4, 1#64, 2#64, 3#64⟩) = .ok .rsti := by decide
theorem witness_UnnamedOperandBitsAreIgnored :
    let w (op : BitVec 4) : OpWord := ⟨op, 1#64, 2#64, 3#64⟩
    ((w 0x1#4).op = 0x1#4 ∨ (w 0x1#4).op = 0x2#4 ∨ (w 0x1#4).op = 0x5#4) ∧
    ((w 0x5#4).op = 0x1#4 ∨ (w 0x5#4).op = 0x2#4 ∨ (w 0x5#4).op = 0x5#4) ∧ (w 0x9#4).op = 0x9#4 ∧
    (w 0x3#4).op ∈ [0x3#4, 0x4#4, 0x7#4, 0x8#4, 0xB#4] ∧
    (w 0xB#4).op ∈ [0x3#4, 0x4#4, 0x7#4, 0x8#4, 0xB#4] := by decide

/-- The exponent fields 2047; 1 and 2046; 0. -/
theorem witness_NumOperandDenotesBinary64 :
    let e (p : BitVec 64) : Nat := p.toNat / 2 ^ 52 % 2 ^ 11
    e 0xFFF0000000000000#64 = 2047 ∧
    (1 ≤ e 0x0010000000000000#64 ∧ e 0x0010000000000000#64 ≤ 2046) ∧
    (1 ≤ e 0x7FEFFFFFFFFFFFFF#64 ∧ e 0x7FEFFFFFFFFFFFFF#64 ≤ 2046) ∧
    e 0x800FFFFFFFFFFFFF#64 = 0 := by decide

/-- A state in which the host presents a WRCW and then asserts reset. -/
def busy : State :=
  { cached 7#32 [.ok] [] with
    requests := [.present (.hostOp ⟨0x5#4, 9#64, 0#64, 0#64⟩), .reset] }

theorem witness_TextualFormOfExamples : readNum "5".toList = some 5 := by decide +kernel

theorem witness_StepRunsPresentedInstruction :
    busy.requests = .present (.hostOp ⟨0x5#4, 9#64, 0#64, 0#64⟩) :: [.reset] ∧
    decode (.hostOp ⟨0x5#4, 9#64, 0#64, 0#64⟩) = .ok (.wrcw 9#32) := by decide
theorem witness_StepIdlesOrRefusesUnassigned :
    State.reset.requests = [] ∧
    ({ State.reset with requests := [.present (.hostOp ⟨0xA#4, 0#64, 0#64, 0#64⟩)] } : State).requests =
      .present (.hostOp ⟨0xA#4, 0#64, 0#64, 0#64⟩) :: [] ∧
    0xA#4 ∈ [0x0#4, 0xA#4, 0xC#4, 0xD#4, 0xE#4, 0xF#4] ∧
    0xF#4 ∈ [0x0#4, 0xA#4, 0xC#4, 0xD#4, 0xE#4, 0xF#4] ∧
    0x1#4 ∉ [0x0#4, 0xA#4, 0xC#4, 0xD#4, 0xE#4, 0xF#4] ∧
    0xB#4 ∉ [0x0#4, 0xA#4, 0xC#4, 0xD#4, 0xE#4, 0xF#4] := by decide
theorem witness_PlacedWordIsRunNext :
    decodeTableWord 40 0x7A920700A0 = some (.wrDac 496250#32) ∧ decodeTableWord 4 7 = some .save := by
  decide
theorem witness_ResetInputClearsFlags :
    ({ seeded with requests := [.reset] } : State).requests = .reset :: [] := by decide

/-- The invariant holds at reset. -/
theorem witness_inv_reset : State.reset.Inv where
  cw_le := by decide
  maxchg_nonneg := by decide
  integ_range := by decide
  seeded_valid := by decide
  status_assigned := by decide
  trace_legal := fun _ h => (List.not_mem_nil h).elim

/-- The invariant holds of the state of V-S10, not seeded, whatever the answers. -/
theorem witness_inv_three (acks : List Ack) : (three acks).Inv where
  cw_le := fun _ => by show (500000#32 : Word).toNat ≤ 1000000; decide
  maxchg_nonneg := fun _ => by show (0 : Rat) ≤ 3; norm_num
  integ_range := fun h => by simp [three, cached, State.reset] at h
  seeded_valid := fun _ => rfl
  status_assigned := by show (0#3).toNat ≤ 3; decide
  trace_legal := by intro e h; simp [three, cached, State.reset] at h

theorem witness_EveryStepKeepsInvariant :
    State.reset.Inv ∧ step State.reset = .next State.reset := ⟨witness_inv_reset, rfl⟩

/-- An operation that runs, under the invariant: a placed RSTI at reset. -/
theorem witness_EveryStepKeepsInvariant_operation :
    (State.reset.withFetchWord 4 11).Inv ∧
    ∃ t, step (State.reset.withFetchWord 4 11) = .next t ∧ t.st = statusOk :=
  ⟨⟨by decide, by decide, by decide, by decide, by decide, fun _ h => (List.not_mem_nil h).elim⟩, _, rfl, rfl⟩

theorem witness_DecAcceptsInRangeOnly :
    (unbe32 ⟨0x00#8, 0x0F#8, 0x42#8, 0x40#8⟩).toNat ≤ 1000000 ∧
    1000000 < (unbe32 ⟨0x00#8, 0x0F#8, 0x42#8, 0x41#8⟩).toNat := by decide
theorem witness_CodecRoundTrip :
    decodeFrame ⟨0x00#8, 0x0F#8, 0x42#8, 0x40#8⟩ = .ok 1000000#32 := by rfl
theorem witness_EncodeClampIsIdempotent : 1000000 < (1000001#32 : Word).toNat := by decide
theorem witness_CodecIsPure :
    (Instr.dec 1#32 = .dec 1#32 ∨ Instr.dec 1#32 = .enc 1#32) ∧
    (Instr.enc 1#32 = .dec 1#32 ∨ Instr.enc 1#32 = .enc 1#32) ∧
    (ran (.enc 1#32) State.reset).map (·.st) = some statusOk := by decide

theorem witness_GetcwAnswersTheCache : seeded.cwv = true ∧ State.reset.cwv = false := by decide
theorem witness_RdcwCommitsTheValueRead :
    answerRead (cached 1#32 [] [.got4 ⟨0x00#8, 0x0F#8, 0x42#8, 0x40#8⟩]).env 0x41#8 =
      (.got4 ⟨0x00#8, 0x0F#8, 0x42#8, 0x40#8⟩, .oracle [] [] 1) ∧
    (unbe32 ⟨0x00#8, 0x0F#8, 0x42#8, 0x40#8⟩).toNat ≤ 1000000 := by decide

/-- Each of the causes of R92, three bytes and a value one above the maximum among them. -/
theorem witness_RdcwFailureKeepsTheStore :
    (answerRead (.oracle [] [.err] 0) 0x41#8 = (.err, .oracle [] [] 1) ∧
      readFailure .err = some .busUnavailable) ∧
    (answerRead (.oracle [] [.got3 0#8 15#8 66#8] 0) 0x41#8 = (.got3 0#8 15#8 66#8, .oracle [] [] 1) ∧
      readFailure (.got3 0#8 15#8 66#8) = some .shortRead) ∧
    (answerRead (.oracle [] [.got4 ⟨0x00#8, 0x0F#8, 0x42#8, 0x41#8⟩] 0) 0x41#8 =
        (.got4 ⟨0x00#8, 0x0F#8, 0x42#8, 0x41#8⟩, .oracle [] [] 1) ∧
      readFailure (.got4 ⟨0x00#8, 0x0F#8, 0x42#8, 0x41#8⟩) = some .outOfRange) := by decide
theorem witness_WrcwWritesTheClampedValue :
    (1000000#32 : Word) = BitVec.ofNat 32 (min (1500000#32 : Word).toNat 1000000) ∧
    answerWrite (cached 1#32 [.ok] []).env 0xA0#8 (be32 1000000#32) = (.ok, .oracle [] [] 1) ∧
    answerWrite (cached 1#32 [.err] []).env 0xA0#8 (be32 1000000#32) = (.err, .oracle [] [] 1) := by
  decide

/-- A failure (V-T4), an operation that never writes the Store, and one that changes it (V-T3). -/
theorem witness_StoreChangesOnlyAfterSuccess :
    (∃ t, exec (.wrcw 7#32) (cached 1000000#32 [.err] []) = .next t ∧ t.st ≠ statusOk) ∧
    (∃ t, exec .rsti seeded = .next t) ∧
    (∃ t, exec (.wrcw 7#32) (cached 1000000#32 [.ok] []) = .next t ∧ t.cw ≠ 1000000#32) :=
  ⟨⟨_, rfl, by decide⟩, ⟨_, rfl⟩, ⟨_, rfl, by decide⟩⟩
theorem witness_CacheIsTheLastFrame :
    (cached 1#32 [.ok] []).cwv = true ∧
    (∃ t, exec (.wrcw 7#32) (cached 1#32 [.ok] []) = .next t ∧ t.st = statusOk) ∧
    (∃ t, exec .rdcw (cached 1#32 [] [.got4 ⟨0#8, 0#8, 0#8, 2#8⟩]) = .next t ∧ t.st = statusOk) :=
  ⟨rfl, ⟨_, rfl, rfl⟩, ⟨_, rfl, rfl⟩⟩

/-- A tie, R10's own `2.5`. -/
theorem witness_RoundIsNearestTiesAway : |(roundTiesAway (5 / 2) : Rat) - 5 / 2| = 1 / 2 := by decide +kernel
theorem witness_OversizedSumsSaturate :
    (-1 : Int) < 0 ∧ (1000000 : Int) < 1000001 ∧ ((0 : Int) ≤ 0 ∧ (0 : Int) ≤ 1000000) ∧
    ((0 : Int) ≤ 1000000 ∧ (1000000 : Int) ≤ 1000000) := by decide

/-- With `MAXCHG = 3` (`m = 3750`): a change inside, at the limit, above and below it (V-S4, V-S5, V-S1). -/
theorem witness_RateLimitClampsTheRequiredChange :
    let r (b : Rat) := steerSteps Config.hw 3 500000 b 1 0
    (0 : Rat) ≤ 3 ∧ |(r (1 / 1000000)).req| ≤ (r (1 / 1000000)).m ∧ |(r (3 / 1000000)).req| ≤ (r (3 / 1000000)).m ∧
    (r (-1 / 5000)).m < (r (-1 / 5000)).req ∧ (r (1 / 5000)).req < -(r (1 / 5000)).m := by decide +kernel
theorem witness_ProportionalTermWithinRateLimit : (0 : Rat) ≤ 0 ∧ (0 : Rat) ≤ 3 := by decide +kernel

/-- The identity has the properties of U9, as the spec says. -/
theorem witness_BoundsHoldForEveryRounding : RndProperties (fun q => q) ∧ (0 : Rat) ≤ 0 where
  left :=
    { zero := rfl
      neg := fun _ => rfl
      mono := fun _ _ h => h
      idem := fun _ => rfl
      int := fun _ _ => rfl
      near := fun x _ _ => by
        rw [sub_self, abs_zero]
        exact mul_nonneg (abs_nonneg x) (by positivity) }
  right := le_refl 0

/-- Zero, negative zero, three; minus one and the negative number nearest to zero; infinity. -/
theorem witness_SetmaxStoresTheRateLimit :
    (numOfBits 0#64 = some 0 ∧ (0 : Rat) ≤ 0) ∧
    (numOfBits 0x4008000000000000#64 = some 3 ∧ (0 : Rat) ≤ 3) ∧
    (numOfBits 0xBFF0000000000000#64 = some (-1) ∧ (-1 : Rat) < 0) ∧
    (numOfBits 0x8000000000000001#64 = some (-(1 / 2 ^ 1074)) ∧ (-(1 / 2 ^ 1074) : Rat) < 0) ∧
    numOfBits 0x7FF0000000000000#64 = none := by decide +kernel
theorem witness_RstiClearsTheIntegratorFlag : seeded.inti = true ∧ State.reset.inti = false := by decide

/-- V-S9c: the operands as numbers, the word, the answer. -/
theorem witness_SteerCommitsTheNewWord :
    steerReady (quarter [.ok]) ∧ numOfBits 0xBFF0000000000000#64 = some (-1) ∧
    numOfBits 0x3FF0000000000000#64 = some 1 ∧ numOfBits 0#64 = some 0 ∧
    500313#32 = specSteerWord (quarter [.ok]) (-1) 1 0 ∧
    answerWrite (quarter [.ok]).env 0xA0#8 (be32 500313#32) = (.ok, .oracle [] [] 1) := by
  refine ⟨⟨rfl, .inr rfl⟩, ?_, ?_, ?_, ?_, rfl⟩ <;> decide +kernel
theorem witness_SteerFailureKeepsTheIntegrator :
    steerReady (quarter [.err]) ∧ numOfBits 0xBFF0000000000000#64 = some (-1) ∧
    numOfBits 0x3FF0000000000000#64 = some 1 ∧ numOfBits 0#64 = some 0 ∧
    500313#32 = specSteerWord (quarter [.err]) (-1) 1 0 ∧
    answerWrite (quarter [.err]).env 0xA0#8 (be32 500313#32) = (.err, .oracle [] [] 1) := by
  refine ⟨⟨rfl, .inr rfl⟩, ?_, ?_, ?_, ?_, rfl⟩ <;> decide +kernel
theorem witness_SteerRefusals :
    State.reset.maxv = false ∧
    (let s : State := { State.reset with maxv := true }
     s.maxv = true ∧ s.inti = false ∧ s.cwv = false) ∧
    (steerReady (three []) ∧ numOfBits 0x7FF8000000000000#64 = none) :=
  ⟨rfl, ⟨rfl, rfl, rfl⟩, ⟨rfl, .inr rfl⟩, rfl⟩

/-- Each of the three: a zero bias, zero gains, a zero rate limit. -/
theorem witness_NoCorrectionHoldsTheIntegrator :
    ((three [.ok]).Inv ∧ steerReady (three [.ok])) ∧
    numOfBits 0#64 = some 0 ∧ numOfBits 0x8000000000000000#64 = some 0 ∧
    numOfBits 0x4014000000000000#64 = some 5 ∧
    ((0 : Rat) = 0 ∨ ((1 : Rat) = 0 ∧ (1 : Rat) = 0) ∨ (three [.ok]).maxchg = 0) ∧
    (({ three [.ok] with maxchg := 0 } : State).Inv ∧ ({ three [.ok] with maxchg := 0 } : State).maxchg = 0) :=
  ⟨⟨witness_inv_three _, rfl, .inr rfl⟩, by decide +kernel, by decide +kernel, by decide +kernel, .inl rfl,
    { witness_inv_three [.ok] with maxchg_nonneg := fun _ => le_refl (0 : Rat) }, rfl⟩

/-- Two states that differ in what R120 leaves out: the status, the trace, the further answers. -/
theorem witness_SteerDependsOnNothingElse :
    let s := three [.ok, .err]
    let s' : State := { three [.ok] with st := 2#3, trace := [.ping .ok], tick := 9 }
    s.maxchg = s'.maxchg ∧ s.maxv = s'.maxv ∧ s.inti = s'.inti ∧ (s.inti = true → s.integ = s'.integ) ∧
    (s.inti = false → s.cw = s'.cw ∧ s.cwv = s'.cwv) ∧
    (∀ f, (answerWrite s.env 0xA0#8 f).1 = (answerWrite s'.env 0xA0#8 f).1) ∧
    ∃ t, exec (.steer 0#64 0#64 0#64) s = .next t :=
  ⟨rfl, rfl, rfl, fun _ => rfl, fun _ => ⟨rfl, rfl⟩, fun _ => rfl, _, rfl⟩

/-- `MAXCHG = 3`, `b = 1` or `−1`, `Pk = 0`, `Ik = 1`: P3. -/
theorem witness_IntegratorRunIsMonotone :
    (three []).Inv ∧ steerReady (three []) ∧ numOfBits 0x3FF0000000000000#64 = some 1 ∧
    numOfBits 0xBFF0000000000000#64 = some (-1) ∧ numOfBits 0#64 = some 0 ∧
    0 < (three []).maxchg ∧ (0 : Rat) < 1 ∧ (-1 : Rat) < 0 :=
  ⟨witness_inv_three _, ⟨rfl, .inr rfl⟩, by decide +kernel, by decide +kernel, by decide +kernel,
    by decide +kernel, by decide +kernel, by decide +kernel⟩

/-- V-S9c again, with the bounds of R119 (a). -/
theorem witness_SeedingCallMovesByTheCorrection :
    let s := quarter [.ok]
    s.inti = false ∧ numOfBits 0xBFF0000000000000#64 = some (-1) ∧
    numOfBits 0x3FF0000000000000#64 = some 1 ∧ numOfBits 0#64 = some 0 ∧
    (ran (.steer 0xBFF0000000000000#64 0x3FF0000000000000#64 0#64) s).any (fun t => t.st = statusOk) = true ∧
    0 ≤ (s.cw.toNat : Rat) + specLimited s.maxchg (-1) * 0 ∧
    (s.cw.toNat : Rat) + specLimited s.maxchg (-1) * 0 ≤ 1000000 ∧
    0 ≤ roundTiesAway ((s.cw.toNat : Rat) + specLimited s.maxchg (-1) * (1 + 0)) ∧
    roundTiesAway ((s.cw.toNat : Rat) + specLimited s.maxchg (-1) * (1 + 0)) ≤ 1000000 := by
  decide +kernel

theorem witness_SeedingCallMovesByTheCorrection_inv : (quarter [.ok]).Inv :=
  { witness_inv_three [.ok] with maxchg_nonneg := fun _ => (by norm_num : (0 : Rat) ≤ 1 / 4) }

/-- P1 lines 3 and 4: two successful calls in a row. -/
theorem witness_SuccessiveCallsMoveBound :
    numOfBits 0xBFF0000000000000#64 = some (-1) ∧ numOfBits 0x3FF0000000000000#64 = some 1 ∧
    numOfBits 0#64 = some 0 ∧
    (((ran (.steer 0xBFF0000000000000#64 0x3FF0000000000000#64 0#64) (quarter [.ok, .ok])).bind
      (fun t => (ran (.steer 0x3FF0000000000000#64 0x3FF0000000000000#64 0#64) t).map
        (fun u => (t.st, u.st)))) = some (statusOk, statusOk)) := by decide +kernel
theorem witness_EverySteerWritesOnce :
    steerReady (three []) ∧ numOfBits 0#64 = some 0 ∧ numOfBits 0x3FF0000000000000#64 = some 1 :=
  ⟨⟨rfl, .inr rfl⟩, by decide +kernel, by decide +kernel⟩

theorem witness_SaveCommitsTheReadBack :
    answerCmd (.oracle [.ok] [.got4 ⟨0x00#8, 0x0F#8, 0x42#8, 0x40#8⟩] 0) 0xC2#8 =
      (.ok, .oracle [] [.got4 ⟨0x00#8, 0x0F#8, 0x42#8, 0x40#8⟩] 1) ∧
    answerRead (.oracle [] [.got4 ⟨0x00#8, 0x0F#8, 0x42#8, 0x40#8⟩] 1) 0x41#8 =
      (.got4 ⟨0x00#8, 0x0F#8, 0x42#8, 0x40#8⟩, .oracle [] [] 2) ∧
    (unbe32 ⟨0x00#8, 0x0F#8, 0x42#8, 0x40#8⟩).toNat ≤ 1000000 := by decide
theorem witness_SaveFailures :
    answerCmd (.oracle [.err] [] 0) 0xC2#8 = (.err, .oracle [] [] 1) ∧
    (answerCmd (.oracle [.ok] [.got2 0#8 7#8] 0) 0xC2#8 = (.ok, .oracle [] [.got2 0#8 7#8] 1) ∧
      answerRead (.oracle [] [.got2 0#8 7#8] 1) 0x41#8 = (.got2 0#8 7#8, .oracle [] [] 2) ∧
      readFailure (.got2 0#8 7#8) = some .shortRead) := by decide
theorem witness_InitCommitsTheSecondRead :
    let f1 : Frame := ⟨0#8, 0#8, 0#8, 0#8⟩
    let f2 : Frame := ⟨0x00#8, 0x0F#8, 0x42#8, 0x40#8⟩
    answerPing (.oracle [.ok] [.got4 f1, .got4 f2] 0) = (.ok, .oracle [] [.got4 f1, .got4 f2] 1) ∧
    answerRead (.oracle [] [.got4 f1, .got4 f2] 1) 0x41#8 = (.got4 f1, .oracle [] [.got4 f2] 2) ∧
    answerRead (.oracle [] [.got4 f2] 2) 0x41#8 = (.got4 f2, .oracle [] [] 3) ∧
    (unbe32 f1).toNat ≤ 1000000 ∧ (unbe32 f2).toNat ≤ 1000000 := by decide

/-- A failed ping; V-I2, where the first read fails; V-I3, where the second does. -/
theorem witness_InitFailures :
    let good : ReadAnswer := .got4 ⟨0x00#8, 0x07#8, 0xA1#8, 0x20#8⟩
    answerPing (.oracle [.err] [] 0) = (.err, .oracle [] [] 1) ∧
    (answerPing (.oracle [.ok] [.err, good] 0) = (.ok, .oracle [] [.err, good] 1) ∧
      answerRead (.oracle [] [.err, good] 1) 0x41#8 = (.err, .oracle [] [good] 2) ∧
      answerRead (.oracle [] [good] 2) 0x41#8 = (good, .oracle [] [] 3) ∧
      readFailure .err = some .busUnavailable) ∧
    (answerRead (.oracle [] [good, .got2 0#8 7#8] 1) 0x41#8 = (good, .oracle [] [.got2 0#8 7#8] 2) ∧
      answerRead (.oracle [] [.got2 0#8 7#8] 2) 0x41#8 = (.got2 0#8 7#8, .oracle [] [] 3) ∧
      readFailure good = none ∧ readFailure (.got2 0#8 7#8) = some .shortRead) := by decide
theorem witness_OnlyInitReadsTwice :
    (∃ t, exec .init (cached 42#32 [.ok] [.got4 ⟨0#8, 0#8, 0#8, 1#8⟩, .got4 ⟨0#8, 0#8, 0#8, 2#8⟩]) = .next t ∧
      t.st = statusOk) ∧
    (∃ t, exec .rdcw State.reset = .next t) ∧ (∃ t, exec .save State.reset = .next t) ∧
    Instr.save ≠ .init :=
  ⟨⟨_, rfl, rfl⟩, ⟨_, rfl⟩, ⟨_, rfl⟩, by decide⟩

theorem witness_BusTransactionsAreOneEvent :
    let e : Environment := .oracle [.err] [.got0] 0
    answerRead e 0x41#8 = (.got0, .oracle [.err] [] 1) ∧
    ((1000000#32 : Word).toNat ≤ 1000000 ∧
      answerWrite e 0xA0#8 (be32 1000000#32) = (.err, .oracle [] [.got0] 1)) ∧
    1000000 < (1000001#32 : Word).toNat ∧ answerCmd e 0xC2#8 = (.err, .oracle [] [.got0] 1) := by decide
theorem witness_TransactionsInOrder : ∃ t, exec .init State.reset = .next t := ⟨_, rfl⟩
theorem witness_OracleGivesAnyAnswer : (1000000#32 : Word).toNat ≤ 1000000 := by decide
theorem witness_IdealDeviceReadsBack :
    ({ State.reset with env := .ideal 5#32 6#32 } : State).env = .ideal 5#32 6#32 := rfl

theorem witness_StatusCodesOfEachOperation :
    isHostOp .init = true ∧ ∃ t, exec .init State.reset = .next t := ⟨rfl, _, rfl⟩

/-- A WRCW, and a STEER, whose write fails (V-T4, V-S10). -/
theorem witness_FailureLeavesTheRegisters :
    (isHostOp (.wrcw 7#32) = true ∧
      ∃ t, exec (.wrcw 7#32) (cached 1#32 [.err] []) = .next t ∧ t.st ≠ statusOk) ∧
    (∀ b pk ik, Instr.wrcw 7#32 ≠ .steer b pk ik) ∧
    (isHostOp (.steer 0#64 0#64 0#64) = true ∧
      (ran (.steer 0#64 0#64 0#64) (three [.err])).any (fun t => t.st ≠ statusOk) = true) ∧
    numOfBits 0#64 = some 0 :=
  ⟨⟨rfl, _, rfl, by decide⟩, fun _ _ _ => by simp, ⟨rfl, by decide +kernel⟩, by decide +kernel⟩
theorem witness_OutputsAreNeverRead : isHostOp .getcw = true := rfl

/-- For each register, an operation that changes it. -/
theorem witness_RegisterWriters :
    ((ran (.wrcw 7#32) (cached 1#32 [.ok] [])).any (fun t => t.cw ≠ 1#32) = true) ∧
    ((ran (.setmax 0#64) State.reset).any (fun t => t.maxv ≠ false) = true) ∧
    ((ran .rsti seeded).any (fun t => t.inti ≠ true) = true) ∧
    ((ran .rdFc State.reset).any (fun t => t.trace ≠ []) = true) ∧
    ((ran (.dec 1#32) State.reset).any (fun t => t.res ≠ 0#32) = true) := by decide +kernel
theorem witness_IntegratorFlagLifecycle :
    (∃ t, exec (.steer 0#64 0#64 0#64) (three []) = .next t) ∧
    ({ seeded with requests := [.reset] } : State).requests = .reset :: [] ∧
    (Instr.save ≠ .rsti ∧ seeded.inti = true ∧ ∃ t, exec .save seeded = .next t) ∧
    (∃ t, step { seeded with requests := [.reset] } = .next t ∧ t.inti = false) :=
  ⟨⟨_, rfl⟩, rfl, ⟨by decide, rfl, _, rfl⟩, _, rfl, rfl⟩
theorem witness_ValidityFlagsAreNotCleared :
    seeded.cwv = true ∧ seeded.maxv = true ∧
    ∃ t, step { seeded with requests := [.reset] } = .next t ∧ t.cwv = false ∧ t.maxv = false :=
  ⟨rfl, rfl, _, rfl, rfl, rfl⟩

end Sys2Proof.Tests
end

