-- ==== Sys2Proof/Proofs/Slice0/Scope.lean ====
section
/-!
PROOFS. Scope: rounding to an integer (R10), and what every rounding function with the properties of U9 keeps of the
bounds of a STEER.
-/

namespace Sys2Proof.Machine

/-! ### Rounding to an integer -/

/-- On the numbers that are not negative, `round` of R10 is Mathlib's `round`, which takes ties upwards. -/
theorem roundTiesAway_of_nonneg {q : Rat} (h : 0 ≤ q) : roundTiesAway q = round q := by
  rw [round_eq]
  exact if_pos h

/-- `round` is odd (R10). -/
theorem roundTiesAway_neg (q : Rat) : roundTiesAway (-q) = -roundTiesAway q := by
  obtain h | rfl | h := lt_trichotomy q 0
  · have hn : 0 ≤ -q := by linarith
    simp [roundTiesAway, hn, not_le.2 h]
  · simp [roundTiesAway_of_nonneg]
  · have hn : ¬ 0 ≤ -q := by linarith
    simp [roundTiesAway, hn, h.le]

/-- The value of `round` on a number that is not negative, by the half-open interval around the integer. -/
theorem roundTiesAway_eq_of_mem {q : Rat} {n : Int} (h : 0 ≤ q) (hlo : n - 1 / 2 ≤ q) (hhi : q < n + 1 / 2) :
    roundTiesAway q = n := by
  rw [roundTiesAway_of_nonneg h]
  exact round_eq_iff.2 ⟨hlo, hhi⟩

/-- R10's relation between a number and the integer it rounds to: at most one half away, and at exactly one half
(a tie, decision D4) the integer is the one farther from zero. -/
def NearestTiesAway (q : Rat) (n : Int) : Prop :=
  |(n : Rat) - q| ≤ 1 / 2 ∧ (|(n : Rat) - q| = 1 / 2 → |q| < |(n : Rat)|)

/-- The relation does not see the sign. -/
theorem NearestTiesAway.neg {q : Rat} {n : Int} (h : NearestTiesAway q n) : NearestTiesAway (-q) (-n) := by
  have hdist : |((-n : Int) : Rat) - -q| = |(n : Rat) - q| := by
    rw [Int.cast_neg, neg_sub_neg, abs_sub_comm]
  rwa [NearestTiesAway, hdist, Int.cast_neg, abs_neg, abs_neg]

/-- On the numbers that are not negative a tie that goes upwards goes away from zero. -/
theorem nearestTiesAway_round {q : Rat} (h : 0 ≤ q) : NearestTiesAway q (round q) := by
  refine ⟨abs_sub_comm q (round q) ▸ abs_sub_round q, fun htie => ?_⟩
  have hlow : q - 1 / 2 < round q := sub_half_lt_round q
  have hup : q < round q := by
    obtain hd | hd := abs_eq (by norm_num) |>.1 htie <;> linarith
  rwa [abs_of_nonneg h, abs_of_pos (h.trans_lt hup)]

theorem nearestTiesAway_roundTiesAway (q : Rat) : NearestTiesAway q (roundTiesAway q) := by
  obtain h | h := le_total 0 q
  · rw [roundTiesAway_of_nonneg h]
    exact nearestTiesAway_round h
  · have hneg : 0 ≤ -q := by linarith
    have hr := (nearestTiesAway_round hneg).neg
    rwa [← roundTiesAway_of_nonneg hneg, roundTiesAway_neg, neg_neg, neg_neg] at hr

/-- Settles O27: Mathlib's `round` on the numbers that are not negative, oddness for the others. -/
theorem roundIsNearestTiesAway : Obligations.RoundIsNearestTiesAway := by
  have h52 : roundTiesAway (5 / 2) = 3 := roundTiesAway_eq_of_mem (by norm_num) (by norm_num) (by norm_num)
  have h12 : roundTiesAway (1 / 2) = 1 := roundTiesAway_eq_of_mem (by norm_num) (by norm_num) (by norm_num)
  refine ⟨fun q => ?_, h52, ?_, ?_, ?_⟩
  · obtain ⟨hnear, htie⟩ := nearestTiesAway_roundTiesAway q
    exact ⟨hnear, htie, roundTiesAway_neg q⟩
  · rw [neg_div, roundTiesAway_neg, h52]
  · exact roundTiesAway_eq_of_mem (by norm_num) (by norm_num) (by norm_num)
  · rw [neg_div, roundTiesAway_neg, h12]

/-! ### Rounding functions with the properties of U9 -/

/-- A rounding function keeps the sign of a number that is not negative (U9 a, c). -/
theorem RndProperties.nonneg {rnd : Rat → Rat} (h : RndProperties rnd) {x : Rat} (hx : 0 ≤ x) : 0 ≤ rnd x :=
  h.zero ▸ h.mono 0 x hx

/-- A rounding function commutes with the absolute value (U9 a to c). -/
theorem RndProperties.abs_rnd {rnd : Rat → Rat} (h : RndProperties rnd) (x : Rat) : |rnd x| = rnd |x| := by
  obtain hx | hx := le_total 0 x
  · rw [abs_of_nonneg hx, abs_of_nonneg (h.nonneg hx)]
  · have hneg : 0 ≤ rnd (-x) := h.nonneg (by linarith)
    rw [abs_of_nonpos hx, ← abs_of_nonneg hneg, h.neg, abs_neg]

/-- A bound on a factor bounds the rounded product by the rounded product of the bounds. -/
theorem RndProperties.abs_rnd_mul_le {rnd : Rat → Rat} (h : RndProperties rnd) {x m : Rat} (hx : |x| ≤ m)
    (k : Rat) : |rnd (x * k)| ≤ rnd (m * |k|) := by
  rw [h.abs_rnd, abs_mul]
  exact h.mono _ _ (mul_le_mul_of_nonneg_right hx (abs_nonneg k))

/-! ### The bounds of a STEER -/

/-- A clamp between `-m` and `m` bounds the absolute value (R11). -/
theorem abs_clamp_neg_le (x : Rat) {m : Rat} (hm : 0 ≤ m) : |clamp x (-m) m| ≤ m :=
  abs_le.2 ⟨le_clamp x (neg_le_self hm), clamp_le x (-m) m⟩

/-- The rate limit in control-word units is not negative when the one in parts is not (R105, R121). -/
theorem steerLimit_nonneg {rnd : Rat → Rat} (h : RndProperties rnd) {maxchg : Rat} (hx : 0 ≤ maxchg) :
    0 ≤ steerLimit (withRnd rnd) maxchg := by
  have hppb : 0 ≤ rnd Config.hw.ppb := h.nonneg (by norm_num)
  have hlsb : 0 ≤ rnd Config.hw.rLsb := h.nonneg (by norm_num)
  exact h.nonneg (div_nonneg (h.nonneg (mul_nonneg hx hppb)) hlsb)

/-- The rate-limited required change is within the rate limit (R106). -/
theorem abs_steerLimited_le {c : Config} {maxchg : Rat} (h : 0 ≤ steerLimit c maxchg) (b : Rat) :
    |steerLimited c maxchg b| ≤ steerLimit c maxchg :=
  abs_clamp_neg_le _ h

/-- The integrator after step 6 is within the hardware's bounds whatever the rounding (R108, D5). -/
theorem steerInteg_mem (rnd : Rat → Rat) (maxchg integ b ik : Rat) :
    0 ≤ steerInteg (withRnd rnd) maxchg integ b ik ∧ steerInteg (withRnd rnd) maxchg integ b ik ≤ 1000000 := by
  have hbounds : Config.hw.integLo ≤ Config.hw.integHi := by norm_num
  exact ⟨le_clamp _ hbounds, clamp_le _ _ _⟩

/-- Settles O33: the limit is a rounded quotient of numbers that are not negative, the clamps of R106, R108 and R110
bound what they answer, and `rnd` is odd and monotone. -/
theorem boundsHoldForEveryRounding : Obligations.BoundsHoldForEveryRounding := by
  intro rnd h maxchg integ b pk ik hx
  have hm := steerLimit_nonneg h hx
  have hreqc := abs_steerLimited_le hm b
  obtain ⟨hlo, hhi⟩ := steerInteg_mem rnd maxchg integ b ik
  exact ⟨hm, hreqc, h.abs_rnd_mul_le hreqc pk, h.abs_rnd_mul_le hreqc ik, hlo, hhi, saturateCW_le _⟩

end Sys2Proof.Machine
end

