-- ==== Sys2Proof/Proofs/Slice0/State.lean ====
section
/-!
PROOFS. State: what a step runs, the invariant through every operation, instruction and step (R21, R23, R25, R63,
R103, R141), the frame of every instruction (R20), the life of the three flags (R22, R24, R26, R33), and that the
outputs are never read (R29, R68).
-/

namespace Sys2Proof.Machine

/-! ### A step by the host's oldest request -/

/-- A presented word that decodes is run in the state with its request taken. -/
theorem step_of_present {s : State} {p : Presented} {rest : List Request} {i : Instr}
    (hr : s.requests = .present p :: rest) (hd : decode p = .ok i) : step s = exec i (accept s) := by
  simp only [step, hr, hd]

/-- A reset request resets the state with its request taken. -/
theorem step_of_reset {s : State} {rest : List Request} (hr : s.requests = .reset :: rest) :
    step s = .next (applyReset (accept s)) := by
  simp only [step, hr]

/-- Taking the oldest request leaves the others. -/
theorem accept_eq_of_requests {s : State} {r : Request} {rest : List Request} (hr : s.requests = r :: rest) :
    accept s = { s with requests := rest } := by
  rw [accept, hr, List.tail_cons]

/-- What is placed before every other request is the one taken. -/
theorem accept_presentFirst (p : Presented) (s : State) : accept (presentFirst p s) = s := rfl

/-- A table word that decodes is the decoding of its presented form. -/
theorem decode_tablePresented {nbits w : Nat} {i : Instr} (h : decodeTableWord nbits w = some i) :
    decode (tablePresented nbits w) = .ok i := by
  unfold decodeTableWord at h
  split at h
  · cases h
    assumption
  · cases h

/-! ### The invariant, one lemma per shared operation -/

/-- The frame of a word carries that word (R61, R62). -/
theorem unbe32_be32 (v : Word) : unbe32 (be32 v) = v := by
  apply BitVec.eq_of_toNat_eq
  have := v.isLt
  simp only [be32, unbe32_toNat, BitVec.extractLsb'_toNat, Nat.shiftRight_eq_div_pow]
  omega

/-- Every failure has a code of R141. -/
theorem statusOf_le (c : Cause) : (statusOf c).toNat ≤ 3 := by
  cases c <;> decide

/-- A bus event the block can form keeps the invariant, whatever the environment is after it. -/
theorem State.Inv.after_event {s : State} (h : s.Inv) {e : BusEvent} (he : e.legal) (env : Environment) :
    State.Inv { s with env := env, trace := s.trace ++ [e] } :=
  { h with trace_legal := List.forall_mem_append.2 ⟨h.trace_legal, List.forall_mem_singleton.2 he⟩ }

/-- The end of an operation with a code of R141 keeps the invariant. -/
theorem State.Inv.after_end {s : State} (h : s.Inv) {x : BitVec 3} (hx : x.toNat ≤ 3) (y : Word) (n : Nat) :
    State.Inv { s with st := x, res := y, tick := n } :=
  { h with status_assigned := hx }

theorem State.Inv.after_complete {s : State} (h : s.Inv) (v : Word) : (complete v s).Inv :=
  h.after_end (by decide) _ _

theorem State.Inv.after_completeNoValue {s : State} (h : s.Inv) : (completeNoValue s).Inv :=
  h.after_end (by decide) _ _

theorem State.Inv.after_raiseFail {s : State} (h : s.Inv) (c : Cause) : (raiseFail c s).Inv :=
  h.after_end (statusOf_le c) _ _

/-- A commit of a legal control word keeps the invariant (R21, R91). -/
theorem State.Inv.after_commit {s : State} (h : s.Inv) {v : Word} (hv : v.toNat ≤ 1000000) :
    (commit v s).Inv :=
  { h with cw_le := fun _ => hv, seeded_valid := fun _ => rfl }

theorem State.Inv.after_busPing {s : State} (h : s.Inv) : (busPing s).2.Inv :=
  h.after_event (e := .ping _) trivial _

theorem State.Inv.after_readReg {s : State} (h : s.Inv) : (readReg s).2.Inv :=
  h.after_event (e := .read _ _ _) ⟨rfl, rfl⟩ _

theorem State.Inv.after_busCmd {s : State} (h : s.Inv) : (busCmd 0xC2#8 s).2.Inv :=
  h.after_event (e := .cmd _ _) rfl _

/-- A write of the frame of a legal control word keeps the invariant (R42). -/
theorem State.Inv.after_memWrite {s : State} (h : s.Inv) {v : Word} (hv : v.toNat ≤ 1000000) :
    (memWrite 0xA0#8 (be32 v) s).2.Inv :=
  h.after_event (e := .write _ _ _) ⟨rfl, (unbe32_be32 v).symm ▸ hv⟩ _

/-- The write path clamps first, so it keeps the invariant for every word (R94). -/
theorem State.Inv.after_writePath {s : State} (h : s.Inv) (v : Word) : (writePath v s).Inv := by
  have hw := h.after_memWrite (clampCW_le v)
  obtain ⟨-, heq⟩ | ⟨-, heq⟩ := writePath_cases v s
  · exact heq ▸ (hw.after_commit (clampCW_le v)).after_complete _
  · exact heq ▸ hw.after_raiseFail _

/-- Seeding from a valid cache and an integrator within its bounds keep the invariant (R25, R103). -/
theorem State.Inv.after_seed_integ {s : State} (h : s.Inv) (hc : s.cwv = true) {q : Rat}
    (hq : 0 ≤ q ∧ q ≤ 1000000) : State.Inv { seed s with integ := q } where
  cw_le := by simpa using h.cw_le
  maxchg_nonneg := by simpa using h.maxchg_nonneg
  integ_range := fun _ => hq
  seeded_valid := by simpa using hc
  status_assigned := by simpa using h.status_assigned
  trace_legal := by simpa using h.trace_legal

/-- A STEER that is ready keeps the invariant: a seeded integrator has a valid cache behind it (R102, R103). -/
theorem State.Inv.after_steerRun {s : State} (h : s.Inv) (hready : steerReady s) (b pk ik : Rat) :
    (steerRun Config.hw b pk ik s).Inv := by
  obtain ⟨-, hsource⟩ := hready
  have hc : s.cwv = true := hsource.elim h.seeded_valid id
  exact (h.after_seed_integ hc (steerInteg_mem id _ _ b ik)).after_writePath _

/-- RSTI's effect keeps the invariant: its integrator is free, and no longer seeded (R101). -/
theorem State.Inv.after_unseed {s : State} (h : s.Inv) : (unseed s).Inv where
  cw_le := by simpa using h.cw_le
  maxchg_nonneg := by simpa using h.maxchg_nonneg
  integ_range := by simp
  seeded_valid := by simp
  status_assigned := by simpa using h.status_assigned
  trace_legal := by simpa using h.trace_legal

/-- SETMAX of a number that is not negative keeps the invariant (R23, R100). -/
theorem State.Inv.after_setmax {s : State} (h : s.Inv) {q : Rat} (hq : 0 ≤ q) :
    State.Inv { s with maxchg := q, maxv := true } :=
  { h with maxchg_nonneg := fun _ => hq }

/-- The invariant does not speak of the host's requests. -/
theorem State.Inv.after_accept {s : State} (h : s.Inv) : (accept s).Inv :=
  { h with }

/-- Reset keeps the invariant: every flag is 0, and the trace stays (R33, R160). -/
theorem State.Inv.after_applyReset {s : State} (h : s.Inv) : (applyReset s).Inv where
  cw_le := by simp
  maxchg_nonneg := by simp
  integ_range := by simp
  seeded_valid := by simp
  status_assigned := by simp
  trace_legal := h.trace_legal

/-! ### The invariant, over the instructions and the steps -/

/-- Every instruction keeps the invariant. -/
theorem State.Inv.after_exec {i : Instr} {s t : State} (hs : s.Inv) (h : exec i s = .next t) : t.Inv := by
  cases i with
  | dec image =>
    obtain ⟨v, -, rfl⟩ | rfl := execDec_cases h
    · exact hs.after_complete v
    · exact hs.after_raiseFail _
  | enc v => exact execEnc_cases h ▸ hs.after_complete _
  | getcw => exact (execGetcw_cases h).2 ▸ hs.after_complete _
  | rdcw =>
    obtain ⟨f, -, hf, rfl⟩ | ⟨c, rfl⟩ := execRdcw_cases h
    · exact (hs.after_readReg.after_commit hf).after_complete _
    · exact hs.after_readReg.after_raiseFail c
  | wrcw v => cases h; exact hs.after_writePath v
  | steer b pk ik =>
    obtain ⟨qb, qp, qi, -, -, -, hready, rfl⟩ := execSteer_cases h
    exact hs.after_steerRun hready qb qp qi
  | save =>
    obtain ⟨-, rfl⟩ | ⟨-, ⟨f, -, hf, rfl⟩ | ⟨c, rfl⟩⟩ := execSave_cases h
    · exact hs.after_busCmd.after_raiseFail _
    · exact (hs.after_busCmd.after_readReg.after_commit hf).after_complete _
    · exact hs.after_busCmd.after_readReg.after_raiseFail c
  | init =>
    obtain ⟨-, rfl⟩ | ⟨-, ⟨f, -, hf, rfl⟩ | ⟨c, rfl⟩⟩ := execInit_cases h
    · exact hs.after_busPing.after_raiseFail _
    · exact (hs.after_busPing.after_readReg.after_readReg.after_commit hf).after_completeNoValue
    · exact hs.after_busPing.after_readReg.after_readReg.after_raiseFail c
  | setmax x =>
    obtain ⟨q, -, hq, rfl⟩ := execSetmax_cases h
    exact (hs.after_setmax hq).after_completeNoValue
  | rsti => exact execRsti_cases h ▸ hs.after_unseed.after_completeNoValue
  | rdFc => exact execRdFc_cases h ▸ hs.after_readReg
  | wrDac v =>
    obtain ⟨hv, rfl⟩ := execWrDac_cases h
    exact hs.after_memWrite hv
  | saveFc => exact execSaveFc_cases h ▸ hs.after_busCmd

/-- Settles O15: an idle step changes nothing, reset clears what the invariant speaks of, and every instruction
keeps it. -/
theorem everyStepKeepsInvariant : Obligations.EveryStepKeepsInvariant := by
  intro s t hs h
  obtain ⟨-, rfl⟩ | ⟨-, -, rfl⟩ | ⟨-, -, i, -, -, hexec⟩ := step_cases h
  · exact hs
  · exact hs.after_accept.after_applyReset
  · exact hs.after_accept.after_exec hexec

/-! ### The tier 1 statements: what is run, and reset -/

/-- Settles O10: the state with the request taken is the one with the further requests. -/
theorem stepRunsPresentedInstruction : Obligations.StepRunsPresentedInstruction := by
  intro s p rest i hr hd
  rw [step_of_present hr hd, accept_eq_of_requests hr]

/-- Settles O12: the placed word is presented, and taking it gives back the state it was placed in. -/
theorem placedWordIsRunNext : Obligations.PlacedWordIsRunNext := by
  intro s nbits w i h
  rw [State.withFetchWord, step_of_present (presentFirst_requests _ s) (decode_tablePresented h),
    accept_presentFirst]

/-- Settles O13, by the fields of a reset state. -/
theorem resetInputClearsFlags : Obligations.ResetInputClearsFlags := by
  intro s rest hr
  refine ⟨applyReset (accept s), step_of_reset hr, ?_⟩
  simp [hr]

/-- Settles O14: with the three flags 0 and an empty trace the invariant's clauses ask for nothing but a status
code. -/
theorem invariantHoldsAtReset : Obligations.InvariantHoldsAtReset := by
  refine ⟨rfl, rfl, rfl, rfl, ?_⟩
  exact ⟨nofun, nofun, nofun, nofun, by decide, nofun⟩

/-! ### The frame of every instruction -/

/-- Settles O57, by what each instruction can do. -/
theorem registerWriters : Obligations.RegisterWriters := by
  intro i s t h
  cases i with
  | dec image => obtain ⟨v, -, rfl⟩ | rfl := execDec_cases h <;> simp [isHostOp]
  | enc v => obtain rfl := execEnc_cases h; simp [isHostOp]
  | getcw => obtain ⟨-, rfl⟩ := execGetcw_cases h; simp [isHostOp]
  | rdcw =>
    obtain ⟨f, -, -, rfl⟩ | ⟨c, rfl⟩ := execRdcw_cases h <;> simp [isHostOp, transactionsOf]
  | wrcw v => obtain ⟨-, rfl⟩ | ⟨-, rfl⟩ := execWrcw_cases h <;> simp [isHostOp, transactionsOf]
  | steer b pk ik =>
    obtain ⟨qb, qp, qi, -, -, -, -, rfl⟩ := execSteer_cases h
    obtain ⟨-, heq⟩ | ⟨-, heq⟩ := steerRun_cases Config.hw qb qp qi s <;>
      simp [heq, isHostOp, transactionsOf]
  | save =>
    obtain ⟨-, rfl⟩ | ⟨-, ⟨f, -, -, rfl⟩ | ⟨c, rfl⟩⟩ := execSave_cases h <;>
      simp [isHostOp, transactionsOf]
  | init =>
    obtain ⟨-, rfl⟩ | ⟨-, ⟨f, -, -, rfl⟩ | ⟨c, rfl⟩⟩ := execInit_cases h <;>
      simp [isHostOp, transactionsOf]
  | setmax x => obtain ⟨q, -, -, rfl⟩ := execSetmax_cases h; simp [isHostOp]
  | rsti => obtain rfl := execRsti_cases h; simp [isHostOp]
  | rdFc => obtain rfl := execRdFc_cases h; simp [transactionsOf]
  | wrDac v => obtain ⟨-, rfl⟩ := execWrDac_cases h; simp [transactionsOf]
  | saveFc => obtain rfl := execSaveFc_cases h; simp [transactionsOf]

/-! ### The flags -/

@[simp] theorem writePath_inti (v : Word) (s : State) : (writePath v s).inti = s.inti := by
  obtain ⟨-, h⟩ | ⟨-, h⟩ := writePath_cases v s <;> simp [h]

/-- A STEER that runs leaves its integrator seeded, whatever the write answers (R26, R112). -/
@[simp] theorem steerRun_inti (c : Config) (b pk ik : Rat) (s : State) : (steerRun c b pk ik s).inti = true := by
  simp [steerRun]

theorem execSteer_inti {b pk ik : BitVec 64} {s t : State} (h : exec (.steer b pk ik) s = .next t) :
    t.inti = true := by
  obtain ⟨qb, qp, qi, -, -, -, -, rfl⟩ := execSteer_cases h
  exact steerRun_inti _ qb qp qi s

/-- No instruction but RSTI clears `INTI`: of its two writers the other sets it (R20, R26). -/
theorem exec_keeps_inti {i : Instr} {s t : State} (h : exec i s = .next t) (hi : i ≠ .rsti)
    (hs : s.inti = true) : t.inti = true := by
  by_contra hne
  obtain ⟨-, -, hwriters, -⟩ := registerWriters i s t h
  obtain ⟨b, pk, ik, rfl⟩ | hrsti := hwriters (.inr (hs ▸ hne))
  · exact hne (execSteer_inti h)
  · exact hi hrsti

/-- A step that clears `INTI` is a reset or an RSTI (R26). -/
theorem step_clears_inti {s t : State} (h : step s = .next t) (hs : s.inti = true) (ht : t.inti = false) :
    (∃ rest, s.requests = .reset :: rest) ∨
      ∃ p rest, s.requests = .present p :: rest ∧ decode p = .ok .rsti := by
  obtain ⟨-, rfl⟩ | ⟨rest, hr, -⟩ | ⟨p, rest, i, hr, hd, hexec⟩ := step_cases h
  · simp [hs] at ht
  · exact .inl ⟨rest, hr⟩
  · obtain rfl | hi := eq_or_ne i .rsti
    · exact .inr ⟨p, rest, hr, hd⟩
    · simp [exec_keeps_inti hexec hi hs] at ht

/-- Settles O58, from the life cycle's four parts: STEER sets, RSTI and reset clear, nothing else does. -/
theorem integratorFlagLifecycle : Obligations.IntegratorFlagLifecycle :=
  ⟨rfl, fun _ _ _ _ _ h => execSteer_inti h, fun s => ⟨completeNoValue (unseed s), rfl, unseed_inti s⟩,
    fun _ _ hr => ⟨_, step_of_reset hr, rfl⟩, fun _ _ _ h hi hs => exec_keeps_inti h hi hs,
    fun _ _ h hs ht => step_clears_inti h hs ht⟩

/-- The write path commits or leaves the Store, so it never clears `CWV` (R94). -/
theorem writePath_keeps_cwv {v : Word} {s : State} (hs : s.cwv = true) : (writePath v s).cwv = true := by
  obtain ⟨-, h⟩ | ⟨-, h⟩ := writePath_cases v s <;> simp [h, hs]

/-- No instruction clears `CWV`: each of its writers commits or leaves it (R22). -/
theorem exec_keeps_cwv {i : Instr} {s t : State} (h : exec i s = .next t) (hs : s.cwv = true) :
    t.cwv = true := by
  by_contra hne
  obtain ⟨hwriters, -⟩ := registerWriters i s t h
  apply hne
  obtain rfl | ⟨v, rfl⟩ | ⟨b, pk, ik, rfl⟩ | rfl | rfl := hwriters (.inr (hs ▸ hne))
  · obtain ⟨f, -, -, rfl⟩ | ⟨c, rfl⟩ := execRdcw_cases h <;> simp [hs]
  · cases h; exact writePath_keeps_cwv hs
  · obtain ⟨qb, qp, qi, -, -, -, -, rfl⟩ := execSteer_cases h
    exact writePath_keeps_cwv ((seed_cwv s).trans hs)
  · obtain ⟨-, rfl⟩ | ⟨-, ⟨f, -, -, rfl⟩ | ⟨c, rfl⟩⟩ := execSave_cases h <;> simp [hs]
  · obtain ⟨-, rfl⟩ | ⟨-, ⟨f, -, -, rfl⟩ | ⟨c, rfl⟩⟩ := execInit_cases h <;> simp [hs]

/-- No instruction clears `MAXV`: its one writer sets it (R24). -/
theorem exec_keeps_maxv {i : Instr} {s t : State} (h : exec i s = .next t) (hs : s.maxv = true) :
    t.maxv = true := by
  by_contra hne
  obtain ⟨-, hwriters, -⟩ := registerWriters i s t h
  obtain ⟨x, rfl⟩ := hwriters (.inr (hs ▸ hne))
  obtain ⟨q, -, -, rfl⟩ := execSetmax_cases h
  exact hne rfl

/-- Settles O59: an idle step and every instruction keep the two flags, so a step that clears one is a reset. -/
theorem validityFlagsAreNotCleared : Obligations.ValidityFlagsAreNotCleared := by
  intro s t h
  obtain ⟨-, rfl⟩ | ⟨rest, hr, -⟩ | ⟨-, -, i, -, -, hexec⟩ := step_cases h
  · exact ⟨fun hs ht => by simp [hs] at ht, fun hs ht => by simp [hs] at ht⟩
  · exact ⟨fun _ _ => ⟨rest, hr⟩, fun _ _ => ⟨rest, hr⟩⟩
  · exact ⟨fun hs ht => by simp [exec_keeps_cwv hexec hs] at ht,
      fun hs ht => by simp [exec_keeps_maxv hexec hs] at ht⟩

/-! ### The outputs are read by no host operation -/

/-- A state with other outputs. -/
def withOutputs (x : BitVec 3) (y : Word) (s : State) : State := { s with st := x, res := y }

section
variable (x : BitVec 3) (y : Word) (s : State)

/-! The end of an operation overwrites the outputs. -/

theorem complete_withOutputs (v : Word) : complete v (withOutputs x y s) = complete v s := rfl
theorem completeNoValue_withOutputs : completeNoValue (withOutputs x y s) = completeNoValue s := rfl
theorem raiseFail_withOutputs (c : Cause) : raiseFail c (withOutputs x y s) = raiseFail c s := rfl

/-! What comes before the end carries them along unread. -/

theorem finishValue_withOutputs (r : Except Cause Word) :
    finishValue r (withOutputs x y s) = finishValue r s := by
  cases r <;> rfl

theorem finishRead_withOutputs (r : Except Cause Word) :
    finishRead r (withOutputs x y s) = finishRead r s := by
  cases r <;> rfl

theorem finishWrite_withOutputs (a : Ack) (w : Word) :
    finishWrite a w (withOutputs x y s) = finishWrite a w s := by
  cases a <;> rfl

theorem finishInit_withOutputs (r1 r2 : Except Cause Word) :
    finishInit r1 r2 (withOutputs x y s) = finishInit r1 r2 s := by
  cases r1 with
  | error c => rfl
  | ok v => cases r2 <;> rfl

theorem writePath_withOutputs (v : Word) : writePath v (withOutputs x y s) = writePath v s :=
  finishWrite_withOutputs x y (memWrite Config.hw.raWriteDac (be32 (clampCW v)) s).2 _ _

theorem readPath_withOutputs : finishRead (readReg (withOutputs x y s)).1 (readReg (withOutputs x y s)).2 =
    finishRead (readReg s).1 (readReg s).2 :=
  finishRead_withOutputs x y (readReg s).2 _

theorem saveAfterCmd_withOutputs (a : Ack) : saveAfterCmd a (withOutputs x y s) = saveAfterCmd a s := by
  cases a with
  | err => rfl
  | ok => exact readPath_withOutputs x y s

theorem initAfterPing_withOutputs (a : Ack) : initAfterPing a (withOutputs x y s) = initAfterPing a s := by
  cases a with
  | err => rfl
  | ok => exact finishInit_withOutputs x y (readReg (readReg s).2).2 _ _

theorem seed_withOutputs : seed (withOutputs x y s) = withOutputs x y (seed s) := by
  by_cases h : s.inti = true <;> simp [seed, withOutputs, h]

theorem unseed_withOutputs : unseed (withOutputs x y s) = withOutputs x y (unseed s) := by
  by_cases h : s.inti = true <;> simp [unseed, withOutputs, h]

theorem steerRun_withOutputs (c : Config) (b pk ik : Rat) :
    steerRun c b pk ik (withOutputs x y s) = steerRun c b pk ik s := by
  unfold steerRun
  rw [seed_withOutputs]
  exact writePath_withOutputs x y { seed s with integ := _ } _

theorem steerNumbers_withOutputs (c : Config) (b pk ik : Option Rat) :
    steerNumbers c b pk ik (withOutputs x y s) = steerNumbers c b pk ik s := by
  simp only [steerNumbers, steerRun_withOutputs]
  rfl

/-- No host operation reads the outputs of the one before (R29, R68). -/
theorem exec_withOutputs {i : Instr} (hi : isHostOp i = true) : exec i (withOutputs x y s) = exec i s := by
  cases i with
  | dec image => exact congrArg Host.Outcome.next (finishValue_withOutputs x y s _)
  | enc v => exact congrArg Host.Outcome.next (complete_withOutputs x y s _)
  | getcw => rfl
  | rdcw => exact congrArg Host.Outcome.next (readPath_withOutputs x y s)
  | wrcw v => exact congrArg Host.Outcome.next (writePath_withOutputs x y s v)
  | steer b pk ik => exact steerNumbers_withOutputs x y s ..
  | save => exact congrArg Host.Outcome.next (saveAfterCmd_withOutputs x y (busCmd Config.hw.raSaveFc s).2 _)
  | init => exact congrArg Host.Outcome.next (initAfterPing_withOutputs x y (busPing s).2 _)
  | setmax v => rfl
  | rsti =>
    rw [exec, execRsti, unseed_withOutputs, completeNoValue_withOutputs]
    rfl
  | rdFc | wrDac _ | saveFc => cases hi

end

/-- Settles O56, for the state with any other outputs. -/
theorem outputsAreNeverRead : Obligations.OutputsAreNeverRead :=
  fun _ s x y hi => exec_withOutputs x y s hi

end Sys2Proof.Machine
end

