-- ==== Sys2Proof/Proofs/Slice0/Memory.lean ====
section
/-!
PROOFS. Memory: the bus transactions as one event each (R41 to R44, R63), the events every instruction appends to the
trace (R51, R66), the unconstrained oracle (R45), and the smoke run with the ideal device (R56).
-/

namespace Sys2Proof.Machine

/-! ### The bus transactions, run alone -/

/-- A read is one event with its answer; nothing but the environment and the trace changes (R44). -/
theorem memRead_of_answer {s : State} {ra : Byte} {a : ReadAnswer} {e : Environment}
    (h : answerRead s.env ra = (a, e)) :
    memRead ra s = (a, { s with env := e, trace := s.trace ++ [.read ra 4 a] }) := by
  simp [memRead, h]

/-- A write is one event with its answer (R44). -/
theorem memWrite_of_answer {s : State} {ra : Byte} {f : Frame} {a : Ack} {e : Environment}
    (h : answerWrite s.env ra f = (a, e)) :
    memWrite ra f s = (a, { s with env := e, trace := s.trace ++ [.write ra f a] }) := by
  simp [memWrite, h]

/-- A command is one event with its answer (R44). -/
theorem busCmd_of_answer {s : State} {ra : Byte} {a : Ack} {e : Environment}
    (h : answerCmd s.env ra = (a, e)) :
    busCmd ra s = (a, { s with env := e, trace := s.trace ++ [.cmd ra a] }) := by
  simp [busCmd, h]

/-- RD_FC is one read at `0x41` (R63). -/
theorem exec_rdFc (s : State) : exec .rdFc s = .next (memRead 0x41#8 s).2 := rfl

/-- SAVE_FC is one command `0xC2` (R63). -/
theorem exec_saveFc (s : State) : exec .saveFc s = .next (busCmd 0xC2#8 s).2 := rfl

/-- A WR_DAC the block can form is one write (R42, R63). -/
theorem exec_wrDac_of_le {v : Word} (s : State) (hv : v.toNat ≤ 1000000) :
    exec (.wrDac v) s = .next (memWrite 0xA0#8 (be32 v) s).2 :=
  if_pos hv

/-- A WR_DAC above the maximum is refused (log 9). -/
theorem exec_wrDac_of_gt {v : Word} (s : State) (hv : 1000000 < v.toNat) :
    exec (.wrDac v) s = .refused (.writeDataAboveMaximum v) :=
  if_neg (not_le.2 hv)

/-- Settles O50: each transaction is its primitive, whose answer gives the event; a WR_DAC has its data checked. -/
theorem busTransactionsAreOneEvent : Obligations.BusTransactionsAreOneEvent := by
  intro s e
  refine ⟨fun a ha => ?_, fun v a hv ha => ?_, fun v hv => exec_wrDac_of_gt s hv, fun a ha => ?_⟩
  · rw [exec_rdFc, memRead_of_answer ha]
  · rw [exec_wrDac_of_le s hv, memWrite_of_answer ha]
  · rw [exec_saveFc, busCmd_of_answer ha]

/-- Settles O52: the oracle's head is the answer of the primitive's one event. -/
theorem oracleGivesAnyAnswer : Obligations.OracleGivesAnyAnswer := by
  intro s a r v n hv o
  obtain ⟨hread, -⟩ := busTransactionsAreOneEvent { s with env := o } (.oracle [a] [] (n + 1))
  obtain ⟨-, hwrite, -, hcmd⟩ := busTransactionsAreOneEvent { s with env := o } (.oracle [] [r] (n + 1))
  exact ⟨⟨rfl, rfl⟩, ⟨_, hread r rfl, rfl, rfl⟩, ⟨_, hwrite v a hv rfl, rfl, rfl⟩, ⟨_, hcmd a rfl, rfl, rfl⟩⟩

/-! ### The events of every instruction -/

@[simp] theorem legal_ping (a : Ack) : (BusEvent.ping a).legal := trivial
@[simp] theorem legal_read (a : ReadAnswer) : (BusEvent.read 0x41#8 4 a).legal := ⟨rfl, rfl⟩
@[simp] theorem legal_cmd (a : Ack) : (BusEvent.cmd 0xC2#8 a).legal := rfl

/-- The block can form a write of the frame of a word exactly when the word is a legal control word (R42, R63). -/
@[simp] theorem legal_write_be32_iff (v : Word) (a : Ack) :
    (BusEvent.write 0xA0#8 (be32 v) a).legal ↔ v.toNat ≤ 1000000 := by
  simp [BusEvent.legal, unbe32_be32]

/-- An instruction without transactions leaves the trace (R20, R66). -/
theorem exec_trace_of_no_transactions {i : Instr} {s t : State} (h : exec i s = .next t)
    (hi : transactionsOf i = []) : t.trace = s.trace := by
  by_contra hne
  obtain ⟨-, -, -, hbus, -⟩ := registerWriters i s t h
  exact hbus (.inr hne) hi

/-- RDCW issues one read, whatever its answer (R93). -/
theorem execRdcw_trace {s t : State} (h : exec .rdcw s = .next t) :
    ∃ a, t.trace = s.trace ++ [.read 0x41#8 4 a] := by
  obtain ⟨f, -, -, rfl⟩ | ⟨c, rfl⟩ := execRdcw_cases h <;> exact ⟨_, rfl⟩

/-- The write path issues one write, of the clamped word, whatever its answer (R94). -/
theorem writePath_trace (v : Word) (s : State) :
    ∃ a, (writePath v s).trace = s.trace ++ [.write 0xA0#8 (be32 (clampCW v)) a] := by
  obtain ⟨-, h⟩ | ⟨-, h⟩ := writePath_cases v s <;> exact ⟨_, congrArg State.trace h⟩

/-- A STEER that runs issues one write of a legal word (R111). -/
theorem execSteer_trace {b pk ik : BitVec 64} {s t : State} (h : exec (.steer b pk ik) s = .next t) :
    ∃ v a, t.trace = s.trace ++ [.write 0xA0#8 (be32 (clampCW v)) a] := by
  obtain ⟨qb, qp, qi, -, -, -, -, rfl⟩ := execSteer_cases h
  obtain ⟨a, ha⟩ := writePath_trace (steerSteps Config.hw (seed s).maxchg (seed s).integ qb qp qi).w
    { seed s with integ := (steerSteps Config.hw (seed s).maxchg (seed s).integ qb qp qi).integ }
  exact ⟨_, a, by rwa [seed_trace] at ha⟩

/-- SAVE issues its command, then one read unless the command was refused (R130, D13). -/
theorem execSave_trace {s t : State} (h : exec .save s = .next t) :
    t.trace = s.trace ++ [.cmd 0xC2#8 .err] ∨
      ∃ a, t.trace = s.trace ++ [.cmd 0xC2#8 .ok, .read 0x41#8 4 a] := by
  obtain ⟨ha, rfl⟩ | ⟨ha, hend⟩ := execSave_cases h
  · exact .inl (by simp [ha])
  · have htrace : (readReg (busCmd 0xC2#8 s).2).2.trace = s.trace ++
        [.cmd 0xC2#8 .ok, .read 0x41#8 4 (answerRead (busCmd 0xC2#8 s).2.env 0x41#8).1] := by simp [ha]
    obtain ⟨f, -, -, rfl⟩ | ⟨c, rfl⟩ := hend <;> exact .inr ⟨_, htrace⟩

/-- INIT issues its ping, then two reads unless the ping failed (R132, D12). -/
theorem execInit_trace {s t : State} (h : exec .init s = .next t) :
    t.trace = s.trace ++ [.ping .err] ∨
      ∃ a1 a2, t.trace = s.trace ++ [.ping .ok, .read 0x41#8 4 a1, .read 0x41#8 4 a2] := by
  obtain ⟨ha, rfl⟩ | ⟨ha, hend⟩ := execInit_cases h
  · exact .inl (by simp [ha])
  · have htrace : (readReg (readReg (busPing s).2).2).2.trace = s.trace ++
        [.ping .ok, .read 0x41#8 4 (answerRead (busPing s).2.env 0x41#8).1,
          .read 0x41#8 4 (answerRead (readReg (busPing s).2).2.env 0x41#8).1] := by simp [ha]
    obtain ⟨f, -, -, rfl⟩ | ⟨c, rfl⟩ := hend <;> exact .inr ⟨_, _, htrace⟩

/-- Settles O51, by the events of each instruction: the list is cut short only by a refused save command and by a
failed ping. -/
theorem transactionsInOrder : Obligations.TransactionsInOrder := by
  intro i s t h
  cases i with
  | dec _ | enc _ | getcw | setmax _ | rsti =>
    have htrace := exec_trace_of_no_transactions h rfl
    exact ⟨[], by rw [htrace, List.append_nil], nofun, .inl rfl⟩
  | rdcw =>
    obtain ⟨a, htrace⟩ := execRdcw_trace h
    exact ⟨_, htrace, by simp, .inl rfl⟩
  | wrcw v =>
    cases h
    obtain ⟨a, htrace⟩ := writePath_trace v s
    exact ⟨_, htrace, by simp [clampCW_le], .inl rfl⟩
  | steer b pk ik =>
    obtain ⟨v, a, htrace⟩ := execSteer_trace h
    exact ⟨_, htrace, by simp [clampCW_le], .inl rfl⟩
  | save =>
    obtain htrace | ⟨a, htrace⟩ := execSave_trace h
    · exact ⟨_, htrace, by simp, .inr (.inl ⟨rfl, rfl⟩)⟩
    · exact ⟨_, htrace, by simp, .inl rfl⟩
  | init =>
    obtain htrace | ⟨a1, a2, htrace⟩ := execInit_trace h
    · exact ⟨_, htrace, by simp, .inr (.inr ⟨rfl, rfl⟩)⟩
    · exact ⟨_, htrace, by simp, .inl rfl⟩
  | rdFc =>
    obtain rfl := execRdFc_cases h
    exact ⟨_, memRead_trace _ s, by simp, .inl rfl⟩
  | wrDac v =>
    obtain ⟨hv, rfl⟩ := execWrDac_cases h
    exact ⟨_, memWrite_trace _ _ s, by simp [hv], .inl rfl⟩
  | saveFc =>
    obtain rfl := execSaveFc_cases h
    exact ⟨_, busCmd_trace _ s, by simp, .inl rfl⟩

/-! ### The ideal device -/

/-- A write that is answered `Ok` commits the clamped word (R94). -/
theorem writePath_of_ok {v : Word} {s : State} (ha : (answerWrite s.env 0xA0#8 (be32 (clampCW v))).1 = .ok) :
    writePath v s = complete (clampCW v) (commit (clampCW v) (memWrite 0xA0#8 (be32 (clampCW v)) s).2) := by
  obtain ⟨-, h⟩ | ⟨herr, -⟩ := writePath_cases v s
  · exact h
  · simp [ha] at herr

/-- A read path that is answered four bytes in range commits their value (R92, R93, R130). -/
theorem finishRead_readReg_of_got4 {s : State} {f : Frame} (ha : (answerRead s.env 0x41#8).1 = .got4 f)
    (hf : (unbe32 f).toNat ≤ 1000000) :
    finishRead (readReg s).1 (readReg s).2 = complete (unbe32 f) (commit (unbe32 f) (readReg s).2) := by
  have hr : (readReg s).1 = .ok (unbe32 f) := (classifyRead_ok_iff _ _).2 ⟨f, ha, rfl, hf⟩
  rw [hr, finishRead]

/-- A save command that is answered `Ok` is followed by the read path (R130). -/
theorem exec_save_of_ok {s : State} (ha : (answerCmd s.env 0xC2#8).1 = .ok) :
    exec .save s = .next (finishRead (readReg (busCmd 0xC2#8 s).2).1 (readReg (busCmd 0xC2#8 s).2).2) := by
  obtain ⟨herr, -⟩ | ⟨-, h⟩ := saveAfterCmd_cases (busCmd 0xC2#8 s).1 (busCmd 0xC2#8 s).2
  · exact nomatch ha.symm.trans herr
  · exact congrArg Host.Outcome.next h

/-! What the ideal device answers at the three addresses (R56). -/

theorem answerRead_ideal (d sv : Word) : answerRead (.ideal d sv) 0x41#8 = (.got4 (be32 d), .ideal d sv) := rfl

theorem answerWrite_ideal (d sv v : Word) :
    answerWrite (.ideal d sv) 0xA0#8 (be32 v) = (.ok, .ideal v sv) :=
  congrArg (fun w => (Ack.ok, Environment.ideal w sv)) (unbe32_be32 v)

theorem answerCmd_ideal (d sv : Word) : answerCmd (.ideal d sv) 0xC2#8 = (.ok, .ideal d d) := rfl

section
variable {s : State} {d sv : Word}

/-- WRCW leaves the clamped word in the ideal device (R56, R94). -/
theorem exec_wrcw_ideal (hs : s.env = .ideal d sv) (v : Word) :
    ∃ t, exec (.wrcw v) s = .next t ∧ t.env = .ideal (clampCW v) sv := by
  have ha : answerWrite s.env 0xA0#8 (be32 (clampCW v)) = (.ok, .ideal (clampCW v) sv) :=
    hs ▸ answerWrite_ideal d sv (clampCW v)
  refine ⟨writePath v s, rfl, ?_⟩
  simp [writePath_of_ok (congrArg Prod.fst ha), ha]

/-- The read path with the ideal device completes with the device's legal word in the cache, and leaves the device
(R56, R93). -/
theorem readPath_ideal (hs : s.env = .ideal d sv) (hd : d.toNat ≤ 1000000) :
    let t := finishRead (readReg s).1 (readReg s).2
    t.st = statusOk ∧ t.cw = d ∧ t.env = .ideal d sv := by
  have ha : answerRead s.env 0x41#8 = (.got4 (be32 d), .ideal d sv) := hs ▸ answerRead_ideal d sv
  have hpath := finishRead_readReg_of_got4 (congrArg Prod.fst ha) (by rwa [unbe32_be32])
  rw [hpath, unbe32_be32]
  exact ⟨rfl, rfl, congrArg Prod.snd ha⟩

/-- RDCW reads the ideal device's word (R56, R93). -/
theorem exec_rdcw_ideal (hs : s.env = .ideal d sv) (hd : d.toNat ≤ 1000000) :
    ∃ t, exec .rdcw s = .next t ∧ t.st = statusOk ∧ t.cw = d ∧ t.env = .ideal d sv :=
  ⟨_, rfl, readPath_ideal hs hd⟩

/-- SAVE saves the ideal device's word and reads it (R56, R130). -/
theorem exec_save_ideal (hs : s.env = .ideal d sv) (hd : d.toNat ≤ 1000000) :
    ∃ t, exec .save s = .next t ∧ t.st = statusOk ∧ t.cw = d ∧ t.env = .ideal d d := by
  have ha : answerCmd s.env 0xC2#8 = (.ok, .ideal d d) := hs ▸ answerCmd_ideal d sv
  exact ⟨_, exec_save_of_ok (congrArg Prod.fst ha), readPath_ideal (congrArg Prod.snd ha) hd⟩

end

/-- Settles O53: WRCW puts the clamped word into the device, RDCW reads it, SAVE saves it and reads it again. -/
theorem idealDeviceReadsBack : Obligations.IdealDeviceReadsBack := by
  intro s v d sv hs
  have hle := clampCW_le v
  obtain ⟨t, ht, htenv⟩ := exec_wrcw_ideal hs v
  obtain ⟨u, hu, hust, hucw, huenv⟩ := exec_rdcw_ideal htenv hle
  obtain ⟨x, hx, hxst, hxcw, hxenv⟩ := exec_save_ideal huenv hle
  refine ⟨t, u, x, ht, hu, hx, hust, ?_⟩
  rw [hucw]
  exact ⟨clampCW_toNat v, hxst, hxcw, hxenv⟩

end Sys2Proof.Machine
end

