-- ==== Sys2Proof/Proofs/Slice0/Encoding.lean ====
section
/-!
PROOFS. Encoding: frames (R61, R62), the decoder and the encoder against each other on host words and on bus
transactions (R63, R65 to R67, R69), the numbers that `Num` patterns denote (R67 c), and the textual form (R71, R72).
-/

namespace Sys2Proof

open Sys2Proof.Machine

/-! ### Frames -/

/-- Every frame is the frame of its value (R61, R62). -/
theorem be32_unbe32 (f : Frame) : be32 (unbe32 f) = f := by
  have h := unbe32_toNat f.f0 f.f1 f.f2 f.f3
  simp only [be32, byte0_of_sum h, byte1_of_sum h, byte2_of_sum h, byte3_of_sum h]

/-- A slice of eight bits as a number (R61). -/
theorem extractByte_toNat (v : Word) (lo : Nat) : (v.extractLsb' lo 8).toNat = v.toNat / 2 ^ lo % 256 := by
  rw [BitVec.extractLsb'_toNat, Nat.shiftRight_eq_div_pow]

/-- The frame of a legal control word starts with `00`, and its second byte is at most `0F`: `1000000` is `0F4240`
(R63). -/
theorem be32_of_le {v : Word} (hv : v.toNat ≤ 1000000) : (be32 v).f0 = 0x00#8 ∧ (be32 v).f1.toNat ≤ 0x0F := by
  have h0 : (be32 v).f0.toNat = v.toNat / 2 ^ 24 % 256 := extractByte_toNat v 24
  have h1 : (be32 v).f1.toNat = v.toNat / 2 ^ 16 % 256 := extractByte_toNat v 16
  refine ⟨BitVec.eq_of_toNat_eq ?_, ?_⟩
  · rw [h0, BitVec.toNat_ofNat]
    omega
  · omega

/-! ### Bus transactions -/

/-- The bytes of a WR_DAC decode when their data is in range (R63). -/
theorem decode_wrDacBytes {f : Frame} (hf : (unbe32 f).toNat ≤ 1000000) :
    decode (.bus (wrDacBytes f)) = .ok (.wrDac (unbe32 f)) :=
  if_pos ⟨rfl, hf⟩

/-- Accepted bytes are exactly the encoding of what they decode to (R63). -/
theorem encode_of_decodeBus {bytes : List Byte} {i : Instr} (h : decodeBus bytes = .ok i) :
    encode i = .bus bytes ∧ i.wf = true := by
  unfold decodeBus at h
  split at h
  next a =>
    split at h
    next ha => cases h; rw [ha]; exact ⟨rfl, rfl⟩
    next =>
      split at h
      next ha => cases h; rw [ha]; exact ⟨rfl, rfl⟩
      next => cases h
  next a f0 f1 f2 f3 =>
    split at h
    next hf =>
      obtain ⟨ha, hle⟩ := hf
      cases h
      rw [ha, encode, be32_unbe32]
      exact ⟨rfl, decide_eq_true hle⟩
    next => cases h
  next => cases h

/-! ### Host words -/

/-- The selectors that name no operation (R66, R69 d). -/
def unassignedSelectors : List (BitVec 4) := [0x0#4, 0xA#4, 0xC#4, 0xD#4, 0xE#4, 0xF#4]

/-- An unassigned selector is refused by its name (R69 d). -/
theorem decodeHost_of_unassigned {w : OpWord} (h : w.op ∈ unassignedSelectors) :
    decodeHost w = .error (.unassignedSelector w.op) := by
  obtain ⟨op, a0, a1, a2⟩ := w
  simp only [unassignedSelectors, List.mem_cons, List.not_mem_nil, or_false] at h
  obtain rfl | rfl | rfl | rfl | rfl | rfl := h <;> rfl

/-- The other ten selectors are those of R66. -/
theorem assigned_of_not_unassigned :
    ∀ op : BitVec 4, op ∉ unassignedSelectors →
      op = 0x1#4 ∨ op = 0x2#4 ∨ op = 0x3#4 ∨ op = 0x4#4 ∨ op = 0x5#4 ∨ op = 0x6#4 ∨ op = 0x7#4 ∨ op = 0x8#4 ∨
        op = 0x9#4 ∨ op = 0xB#4 := by
  decide

/-- Every other selector decodes, to a well-formed instruction whose encoding has that selector (R66). -/
theorem decodeHost_of_assigned {w : OpWord} (h : w.op ∉ unassignedSelectors) :
    ∃ i a0 a1 a2, decodeHost w = .ok i ∧ encode i = .hostOp ⟨w.op, a0, a1, a2⟩ ∧ i.wf = true := by
  obtain ⟨op, a0, a1, a2⟩ := w
  obtain rfl | rfl | rfl | rfl | rfl | rfl | rfl | rfl | rfl | rfl := assigned_of_not_unassigned op h <;>
    exact ⟨_, _, _, _, rfl, rfl, rfl⟩

/-- An accepted host word has the selector of the encoding of what it decodes to (R66). -/
theorem encode_of_decodeHost {w : OpWord} {i : Instr} (h : decodeHost w = .ok i) :
    (∃ a0 a1 a2, encode i = .hostOp ⟨w.op, a0, a1, a2⟩) ∧ i.wf = true := by
  by_cases hop : w.op ∈ unassignedSelectors
  · cases (decodeHost_of_unassigned hop).symm.trans h
  · obtain ⟨j, a0, a1, a2, hj, henc, hwf⟩ := decodeHost_of_assigned hop
    obtain rfl : j = i := Except.ok.inj (hj.symm.trans h)
    exact ⟨⟨a0, a1, a2, henc⟩, hwf⟩

/-- A word operand is read back from its operand register (R67 a). -/
theorem lowWord_wideArg (v : Word) : lowWord (wideArg v) = v := by
  apply BitVec.eq_of_toNat_eq
  have := v.isLt
  simp only [lowWord, wideArg, BitVec.extractLsb'_toNat, BitVec.toNat_setWidth, Nat.shiftRight_zero]
  omega

/-- The high half of an operand register does not change the word operand in it (R67 a, b). -/
theorem lowWord_append (hi : BitVec 32) (arg : BitVec 64) : lowWord (hi ++ arg.extractLsb' 0 32) = lowWord arg :=
  BitVec.extractLsb'_append_eq_right

/-! ### The decoder against the encoder -/

/-- Settles O4: by the instruction; a word operand is read back from its register, a WR_DAC's data from its frame. -/
theorem decodeOfEncode : Obligations.DecodeOfEncode := by
  intro i hwf
  cases i with
  | dec v | enc v | wrcw v => simp only [encode, decode, decodeHost, BitVec.reduceToNat, lowWord_wideArg]
  | wrDac v =>
    have hv : (unbe32 (be32 v)).toNat ≤ 1000000 := by
      rw [unbe32_be32]
      exact of_decide_eq_true hwf
    rw [encode, decode_wrDacBytes hv, unbe32_be32]
  | _ => rfl

/-- Settles O5: what is accepted has the bytes, or the selector, of its encoding, and O4 decodes that again. -/
theorem decodedWordsAreWellFormed : Obligations.DecodedWordsAreWellFormed := by
  intro p i h
  cases p with
  | hostOp w =>
    obtain ⟨⟨a0, a1, a2, henc⟩, hwf⟩ := encode_of_decodeHost h
    refine ⟨hwf, decodeOfEncode i hwf, nofun, fun w' hw' => ?_⟩
    cases hw'
    exact ⟨_, henc, rfl⟩
  | bus bytes =>
    obtain ⟨henc, hwf⟩ := encode_of_decodeBus h
    refine ⟨hwf, decodeOfEncode i hwf, fun bytes' hb => ?_, nofun⟩
    cases hb
    exact henc

/-- Settles O2: the value does not wrap, and a frame and a word determine each other. -/
theorem frameDecodingInvertsEncoding : Obligations.FrameDecodingInvertsEncoding := by
  refine ⟨fun f => ?_, unbe32_be32, be32_unbe32, by decide⟩
  rw [unbe32_toNat]
  omega

/-- Settles O3: the write path sends the frame of a clamped word, which is a legal control word. -/
theorem writeDataStartsWithZero : Obligations.WriteDataStartsWithZero := by
  intro v
  obtain ⟨h0, h1⟩ := be32_of_le (clampCW_le v)
  exact ⟨h0, h1, be32_of_le⟩

/-- Settles O7: for each selector the decoder reads only the operand bits that R67 names. -/
theorem unnamedOperandBitsAreIgnored : Obligations.UnnamedOperandBitsAreIgnored := by
  rintro ⟨op, b0, b1, b2⟩
  refine ⟨?_, ?_, ?_⟩
  · rintro (rfl | rfl | rfl) hi a1 a2 <;>
      simp only [decode, decodeHost, BitVec.reduceToNat, lowWord_append]
  · rintro rfl a1 a2
    rfl
  · intro hop a0 a1 a2
    simp only [List.mem_cons, List.not_mem_nil, or_false] at hop
    obtain rfl | rfl | rfl | rfl | rfl := hop <;> rfl

/-- Settles O1: the four slices as quotients and remainders; `2 ^ 24` is `256 ^ 3`, and so on. -/
theorem frameEncodingIsBigEndian : Obligations.FrameEncodingIsBigEndian := by
  refine ⟨fun v => ⟨rfl, ?_, ?_, ?_, ?_, rfl⟩, by decide⟩
  · exact extractByte_toNat v 24
  · exact extractByte_toNat v 16
  · exact extractByte_toNat v 8
  · exact extractByte_toNat v 0

/-- Settles O6: each of the words is the encoding of its instruction (O4). -/
theorem sampleWordsDecode : Obligations.SampleWordsDecode :=
  ⟨decodeOfEncode (.dec 0x000F4241#32) rfl, decodeOfEncode (.wrcw 1500000#32) rfl,
    decodeOfEncode (.steer 0x3F2A36E2EB1C432D#64 0x3FF0000000000000#64 0#64) rfl, decodeOfEncode .rsti rfl,
    decodeOfEncode .rdFc rfl, decodeOfEncode (.wrDac 496250#32) rfl, decodeOfEncode .saveFc rfl⟩

/-- Settles O11: the decoder names an unassigned selector, and decodes every other one. -/
theorem stepIdlesOrRefusesUnassigned : Obligations.StepIdlesOrRefusesUnassigned := by
  refine ⟨fun s hs => ?_, fun s w rest hs hop => ?_, fun w hop => ?_⟩
  · simp only [step, hs]
  · simp only [step, hs, decode, decodeHost_of_unassigned hop, refusalOf]
  · obtain ⟨i, a0, a1, a2, hi, -⟩ := decodeHost_of_assigned hop
    exact ⟨i, hi⟩

/-! ### The number a `Num` pattern denotes -/

/-- The exponent field as a number (R67 c). -/
theorem numExponent_eq (p : BitVec 64) : numExponent p = p.toNat / 2 ^ 52 % 2 ^ 11 := by
  rw [numExponent, BitVec.extractLsb'_toNat, Nat.shiftRight_eq_div_pow]

/-- The fraction field as a number (R67 c). -/
theorem numFraction_eq (p : BitVec 64) : numFraction p = p.toNat % 2 ^ 52 := by
  rw [numFraction, BitVec.extractLsb'_toNat, Nat.shiftRight_zero]

/-- The sign bit negates the number (R67 c). -/
theorem neg_one_pow_sign_mul (p : BitVec 64) (q : Rat) :
    (-1) ^ (p.toNat / 2 ^ 63) * q = if numSign p then -q else q := by
  have hp := p.isLt
  have hsign : numSign p = decide (2 ^ 63 ≤ p.toNat) := (BitVec.msb_eq_getLsbD_last p).symm.trans p.msb_eq_decide
  by_cases h : 2 ^ 63 ≤ p.toNat
  · have hs : p.toNat / 2 ^ 63 = 1 := by omega
    rw [hs, hsign, if_pos (decide_eq_true h), pow_one, neg_one_mul]
  · have hs : p.toNat / 2 ^ 63 = 0 := by omega
    rw [hs, hsign, if_neg (by simpa only [decide_eq_true_eq] using h), pow_zero, one_mul]

/-- The scale of an exponent field is a power of two, and the field 0 is scaled as the field 1 is (R67 c). -/
theorem scaleBinary_eq (k e : Nat) : scaleBinary k e = (k : Rat) * 2 ^ ((max e 1 : Nat) - 1075 : Int) := by
  unfold scaleBinary
  split
  next hk => simp [hk]
  next =>
    split
    next he =>
      have hexp : ((max e 1 : Nat) - 1075 : Int) = (e - 1075 : Nat) := by omega
      rw [hexp, zpow_natCast]
      push_cast
      rfl
    next he =>
      have hexp : ((max e 1 : Nat) - 1075 : Int) = -(1075 - max e 1 : Nat) := by omega
      rw [hexp, zpow_neg, zpow_natCast, Rat.mkRat_eq_div, div_eq_mul_inv]
      push_cast
      rfl

/-- Every pattern with another exponent field than 2047 denotes its signed and scaled significand (R67 c). -/
theorem numOfBits_of_exponent_ne {p : BitVec 64} (h : numExponent p ≠ 2047) :
    numOfBits p = some ((-1) ^ (p.toNat / 2 ^ 63) *
      ((numSignificand p : Rat) * 2 ^ ((max (numExponent p) 1 : Nat) - 1075 : Int))) := by
  rw [← scaleBinary_eq, neg_one_pow_sign_mul, numOfBits, if_neg h]
  exact (apply_ite some _ _ _).symm

/-- Settles O8: by the exponent field, which decides whether there is a number and whether `2 ^ 52` is added. -/
theorem numOperandDenotesBinary64 : Obligations.NumOperandDenotesBinary64 := by
  intro p s e m
  have he : numExponent p = e := numExponent_eq p
  have hm : numFraction p = m := numFraction_eq p
  refine ⟨fun h => if_pos (he.trans h), fun ⟨h1, h2⟩ => ?_, fun h => ?_⟩
  · have hsig : numSignificand p = 2 ^ 52 + m := by rw [numSignificand, if_neg (by omega), hm]
    rw [numOfBits_of_exponent_ne (by omega), hsig, he, max_eq_left h1, ← mul_assoc]
    push_cast
    rfl
  · have hsig : numSignificand p = m := by rw [numSignificand, if_pos (he.trans h), hm]
    rw [numOfBits_of_exponent_ne (by omega), hsig, he, h, ← mul_assoc]
    rfl

/-! ### The textual form -/

/-- The three example lines of R71, and the line `FREEZE 5`, are read. -/
theorem readLine_examples :
    readLine "INIT | ok, 00 00 00 00, 00 07 A1 20".toList =
      some (.instr .init,
        [.ok, .bytes [0x00#8, 0x00#8, 0x00#8, 0x00#8], .bytes [0x00#8, 0x07#8, 0xA1#8, 0x20#8]]) ∧
    readLine "STEER 0.0002, 1, 0 | ok".toList = some (.steer (2 / 10000) 1 0, [.ok]) ∧
    readLine "DEC 00 0F 42 41".toList = some (.instr (.dec 0x000F4241#32), []) ∧
    readLine "FREEZE 5 | ok".toList = some (.steer 5 0 0, [.ok]) := by
  decide +kernel

/-- The three numerals of R71 denote the decimals written. -/
theorem readNum_examples :
    readNum "0.0002".toList = some (2 / 10000) ∧ readNum "200e-6".toList = some (200 / 1000000) ∧
    readNum "-3.5".toList = some (-35 / 10) := by
  decide +kernel

/-- The DEC and the INIT example of R71 are printed. -/
theorem printed_examples :
    instrText (.dec 0x000F4241#32) = some "DEC 00 0F 42 41".toList ∧
    lineText .init [.ping .ok, .read 0x41#8 4 (.got4 ⟨0#8, 0#8, 0#8, 0#8⟩),
      .read 0x41#8 4 (.got4 ⟨0x00#8, 0x07#8, 0xA1#8, 0x20#8⟩)] =
      some "INIT | ok, 00 00 00 00, 00 07 A1 20".toList :=
  ⟨rfl, rfl⟩

/-- FREEZE takes any numeral, with both gains 0 (R72). -/
theorem readFreeze_of_readNum {b : List Char} {q : Rat} (h : readNum b = some q) :
    readFreeze [b] = some (.steer q 0 0) := by
  simp only [readFreeze, h, Option.map_some]

/-- The pattern 0 denotes 0 (R67 c). -/
theorem numOfBits_zero : numOfBits 0#64 = some 0 := rfl

/-- Settles O9: the examples are evaluated; a name selects its operation by its row in the table of names; FREEZE is
STEER with its operand. -/
theorem textualFormOfExamples : Obligations.TextualFormOfExamples := by
  obtain ⟨hinit, hsteer, hdec, hfreeze⟩ := readLine_examples
  obtain ⟨hpoint, hexp, hneg⟩ := readNum_examples
  obtain ⟨hdecText, hinitText⟩ := printed_examples
  exact ⟨hinit, hsteer, hdec, hpoint, hexp, hneg, hdecText, hinitText, by decide, by decide, hfreeze,
    fun _ _ => readFreeze_of_readNum, fun _ => rfl, numOfBits_zero⟩

end Sys2Proof
end

