-- ==== Sys2Proof/Proofs/Slice0/Codec.lean ====
section
/-!
PROOFS. Codec: the clamp and the range check as equations, then DEC and ENC run to their ends (R80 to R84).
-/

namespace Sys2Proof.Machine

/-! ### The clamp and the two frame rules -/

/-- `clampCW` is the word of `min(v, MAX_CONTROL)` (R11, R82). -/
theorem clampCW_eq_ofNat (v : Word) : clampCW v = BitVec.ofNat 32 (min v.toNat 1000000) := by
  rw [← clampCW_toNat, BitVec.ofNat_toNat, BitVec.setWidth_eq]

/-- Above the maximum, `clampCW` is the maximum (R84). -/
theorem clampCW_of_gt {v : Word} (h : 1000000 < v.toNat) : clampCW v = 1000000#32 :=
  if_neg (not_le.2 h)

/-- Clamping twice is clamping once (R84). -/
theorem clampCW_clampCW (v : Word) : clampCW (clampCW v) = clampCW v :=
  clampCW_of_le _ (clampCW_le v)

/-- The rule of DEC up to the maximum (R81). -/
theorem decodeFrame_of_le {f : Frame} (h : (unbe32 f).toNat ≤ 1000000) : decodeFrame f = .ok (unbe32 f) :=
  if_pos h

/-- The rule of DEC above the maximum: rejected, not clamped (R81). -/
theorem decodeFrame_of_gt {f : Frame} (h : 1000000 < (unbe32 f).toNat) : decodeFrame f = .error .outOfRange :=
  if_neg (not_le.2 h)

/-- The frame of an image is the frame encoding of the image read as a number (R61, R67 b). -/
theorem frameOfImage_eq_be32 (image : Word) : frameOfImage image = be32 image := rfl

/-- ENC inverts an accepted DEC: an accepted value needs no clamp, and a frame is the frame of its value (R83). -/
theorem encodeFrame_of_decodeFrame {f : Frame} {v : Word} (h : decodeFrame f = .ok v) : encodeFrame v = f := by
  obtain ⟨hle, hd⟩ | ⟨-, hd⟩ := decodeFrame_cases f
  · obtain rfl : unbe32 f = v := Except.ok.inj (hd.symm.trans h)
    rw [encodeFrame, clampCW_of_le _ hle, be32_unbe32]
  · cases hd.symm.trans h

/-- ENC does not tell a value from its clamped value (R84). -/
theorem encodeFrame_clampCW (v : Word) : encodeFrame (clampCW v) = encodeFrame v :=
  congrArg be32 (clampCW_clampCW v)

/-- The frame of the maximum (R84). -/
theorem encodeFrame_maximum : encodeFrame 1000000#32 = ⟨0x00#8, 0x0F#8, 0x42#8, 0x40#8⟩ := by decide

/-! ### DEC and ENC, run -/

/-- DEC of an image in range answers the image itself, as a number (R81). -/
theorem exec_dec_of_le {image : Word} (s : State) (h : image.toNat ≤ 1000000) :
    exec (.dec image) s = .next (complete image s) := by
  have hd : decodeFrame (be32 image) = .ok image := by
    rw [decodeFrame_of_le (by rwa [unbe32_be32]), unbe32_be32]
  rw [exec, execDec, frameOfImage_eq_be32, hd, finishValue]

/-- DEC of an image above the maximum fails (R81). -/
theorem exec_dec_of_gt {image : Word} (s : State) (h : 1000000 < image.toNat) :
    exec (.dec image) s = .next (raiseFail .outOfRange s) := by
  have hd : decodeFrame (be32 image) = .error .outOfRange := decodeFrame_of_gt (by rwa [unbe32_be32])
  rw [exec, execDec, frameOfImage_eq_be32, hd, finishValue]

/-- ENC answers the image of the clamped value's frame, which read as a number is the clamped value (R67 b, R82). -/
theorem exec_enc (v : Word) (s : State) : exec (.enc v) s = .next (complete (clampCW v) s) := by
  rw [exec, execEnc, imageOfFrame, encodeFrame, unbe32_be32]

/-! ### The obligations -/

/-- Settles O16: the range check decides which of its two ends DEC comes to. -/
theorem decAcceptsInRangeOnly : Obligations.DecAcceptsInRangeOnly :=
  fun _ s => ⟨fun h => ⟨decodeFrame_of_le h, _, exec_dec_of_le s h, rfl, rfl, rfl⟩,
    fun h => ⟨decodeFrame_of_gt h, _, exec_dec_of_gt s h, rfl, rfl⟩⟩

/-- Settles O17: ENC completes with the clamped value, which is the image of its frame. -/
theorem encClampsAndNeverFails : Obligations.EncClampsAndNeverFails := by
  intro v s
  rw [← clampCW_eq_ofNat, unbe32_be32]
  exact ⟨rfl, _, exec_enc v s, rfl, rfl, rfl⟩

/-- Settles O18: what ENC answers is in range, so DEC accepts it. -/
theorem codecRoundTrip : Obligations.CodecRoundTrip :=
  ⟨fun v s => ⟨_, _, exec_enc v s, exec_dec_of_le _ (clampCW_le v), rfl, clampCW_toNat v⟩,
    fun _ _ => encodeFrame_of_decodeFrame⟩

/-- Settles O19: ENC sees its operand through the clamp only, and above the maximum the clamp gives the maximum. -/
theorem encodeClampIsIdempotent : Obligations.EncodeClampIsIdempotent := by
  refine ⟨fun v h => ?_, fun v => ?_⟩
  · have hv : encodeFrame v = encodeFrame 1000000#32 := by rw [← encodeFrame_clampCW, clampCW_of_gt h]
    exact ⟨hv, hv.trans encodeFrame_maximum⟩
  · rw [← clampCW_eq_ofNat, encodeFrame_clampCW]

/-- Settles O20: DEC's end is chosen by its operand and ENC has one end; the read path's rule for four bytes is
DEC's, and the write path sends the frame of the clamped word, which is ENC's. -/
theorem codecIsPure : Obligations.CodecIsPure := by
  refine ⟨?_, fun _ => rfl, writePath_trace⟩
  rintro x i s s' (rfl | rfl)
  · obtain h | h := le_or_gt x.toNat 1000000
    · exact ⟨_, _, exec_dec_of_le s h, exec_dec_of_le s' h, rfl, fun _ => rfl, rfl⟩
    · have hfail : statusOf .outOfRange ≠ statusOk := by decide
      exact ⟨_, _, exec_dec_of_gt s h, exec_dec_of_gt s' h, rfl, fun hok => absurd hok hfail, rfl⟩
  · exact ⟨_, _, exec_enc x s, exec_enc x s', rfl, fun _ => rfl, rfl⟩

end Sys2Proof.Machine
end

