-- ==== Sys2Proof/Proofs/Slice0/Store.lean ====
section
/-!
PROOFS. Store: the read path and the write path run from the answers of their events (R92 to R94), the operations built
from them (RDCW, WRCW, SAVE, INIT; R130, R132), then what every instruction does to the Store (R90, R91, R95, R96).
-/

namespace Sys2Proof.Machine

/-! ### The read path and the write path, run from the answers -/

/-- Four bytes in range are classified as their value (R92). -/
theorem classifyRead_got4_of_le {f : Frame} (h : (unbe32 f).toNat ≤ 1000000) :
    classifyRead (.got4 f) = .ok (unbe32 f) :=
  decodeFrame_of_le h

/-- The classification of R92 names the cause of an answer that fails. -/
theorem classifyRead_of_readFailure {a : ReadAnswer} {c : Cause} (h : readFailure a = some c) :
    classifyRead a = .error c := by
  cases a with
  | got4 f =>
    rw [readFailure, Option.ite_none_right_eq_some] at h
    obtain ⟨hgt, hc⟩ := h
    obtain rfl := Option.some.inj hc
    exact decodeFrame_of_gt hgt
  | err | got0 | got1 _ | got2 _ _ | got3 _ _ _ => exact congrArg Except.error (Option.some.inj h)

section
variable {s : State} {e : Environment}

/-- A ping is one event with its answer (R44). -/
theorem busPing_of_answer {a : Ack} (h : answerPing s.env = (a, e)) :
    busPing s = (a, { s with env := e, trace := s.trace ++ [.ping a] }) := by
  simp [busPing, h]

/-- READREG is one read event and the classification of its answer (R92). -/
theorem readReg_of_answer {a : ReadAnswer} (h : answerRead s.env 0x41#8 = (a, e)) :
    readReg s = (classifyRead a, { s with env := e, trace := s.trace ++ [.read 0x41#8 4 a] }) := by
  rw [readReg, Config.hw_raReadFc, memRead_of_answer h]

/-- The write path is one write event of the clamped word, then the end its answer asks for (R94). -/
theorem writePath_of_answer {v : Word} {a : Ack} (h : answerWrite s.env 0xA0#8 (be32 (clampCW v)) = (a, e)) :
    writePath v s = finishWrite a (clampCW v)
      { s with env := e, trace := s.trace ++ [.write 0xA0#8 (be32 (clampCW v)) a] } := by
  rw [writePath, Config.hw_raWriteDac, memWrite_of_answer h]

/-- RDCW is one read event, then the end its answer asks for (R93). -/
theorem exec_rdcw_of_answer {a : ReadAnswer} (h : answerRead s.env 0x41#8 = (a, e)) :
    exec .rdcw s = .next (finishRead (classifyRead a)
      { s with env := e, trace := s.trace ++ [.read 0x41#8 4 a] }) := by
  rw [exec, execRdcw, readReg_of_answer h]

/-- SAVE is its command event, then what the command's answer asks for (R130). -/
theorem exec_save_of_answer {a : Ack} (h : answerCmd s.env 0xC2#8 = (a, e)) :
    exec .save s = .next (saveAfterCmd a { s with env := e, trace := s.trace ++ [.cmd 0xC2#8 a] }) := by
  rw [exec, execSave, Config.hw_raSaveFc, busCmd_of_answer h]

/-- SAVE after an accepted command is the command event and a read event, then the end the read's answer asks for
(R130). -/
theorem exec_save_of_ok_read {e1 : Environment} {a : ReadAnswer} (hcmd : answerCmd s.env 0xC2#8 = (.ok, e1))
    (hread : answerRead e1 0x41#8 = (a, e)) :
    exec .save s = .next (finishRead (classifyRead a)
      { s with env := e, trace := s.trace ++ [.cmd 0xC2#8 .ok, .read 0x41#8 4 a] }) := by
  rw [exec_save_of_answer hcmd, saveAfterCmd, readReg_of_answer hread, List.append_assoc]
  rfl

/-- INIT after an answered ping is the ping event and two read events, then the end the reads' answers ask for
(R132). -/
theorem exec_init_of_ok_reads {e1 e2 : Environment} {a1 a2 : ReadAnswer} (hping : answerPing s.env = (.ok, e1))
    (hread1 : answerRead e1 0x41#8 = (a1, e2)) (hread2 : answerRead e2 0x41#8 = (a2, e)) :
    exec .init s = .next (finishInit (classifyRead a1) (classifyRead a2)
      { s with env := e, trace := s.trace ++ [.ping .ok, .read 0x41#8 4 a1, .read 0x41#8 4 a2] }) := by
  rw [exec, execInit, busPing_of_answer hping, initAfterPing, readReg_of_answer hread1, readReg_of_answer hread2,
    List.append_assoc, List.append_assoc]
  rfl

end

/-! ### The operations on given answers -/

/-- Settles O22: an answer in range is classified as its value, which the end of the read path commits. -/
theorem rdcwCommitsTheValueRead : Obligations.RdcwCommitsTheValueRead := by
  intro s f e ha hf
  rw [exec_rdcw_of_answer ha, classifyRead_got4_of_le hf]
  rfl

/-- Settles O23: an answer that fails is classified as its cause, which the end of the read path raises. -/
theorem rdcwFailureKeepsTheStore : Obligations.RdcwFailureKeepsTheStore := by
  intro s a e c ha hc
  rw [exec_rdcw_of_answer ha, classifyRead_of_readFailure hc]
  rfl

/-- Settles O45: an accepted command is followed by the read path, here with an answer in range. -/
theorem saveCommitsTheReadBack : Obligations.SaveCommitsTheReadBack := by
  intro s f e1 e2 hcmd hread hf
  rw [exec_save_of_ok_read hcmd hread, classifyRead_got4_of_le hf]
  rfl

/-- Settles O46: a refused command ends SAVE; an accepted one is followed by the read path, here with an answer that
fails. -/
theorem saveFailures : Obligations.SaveFailures := by
  refine fun s e1 => ⟨fun hcmd => exec_save_of_answer hcmd, fun a e2 c hcmd hread hc => ?_⟩
  rw [exec_save_of_ok_read hcmd hread, classifyRead_of_readFailure hc]
  rfl

/-- Settles O47: with both reads classified as values INIT's last step commits the second. -/
theorem initCommitsTheSecondRead : Obligations.InitCommitsTheSecondRead := by
  intro s f1 f2 e1 e2 e3 hping hread1 hread2 hf1 hf2
  rw [exec_init_of_ok_reads hping hread1 hread2, classifyRead_got4_of_le hf1, classifyRead_got4_of_le hf2]
  rfl

/-- Settles O21: GETCW's one condition is the validity flag. -/
theorem getcwAnswersTheCache : Obligations.GetcwAnswersTheCache :=
  fun _ => ⟨fun hs => if_pos hs, fun hs => if_neg (Bool.eq_false_iff.1 hs)⟩

/-- Settles O24: WRCW is the write path, which clamps to the minimum with the maximum. -/
theorem wrcwWritesTheClampedValue : Obligations.WrcwWritesTheClampedValue := by
  intro s v w e hw
  rw [← clampCW_eq_ofNat] at hw
  subst hw
  exact ⟨fun hok => congrArg Host.Outcome.next (writePath_of_answer hok),
    fun herr => congrArg Host.Outcome.next (writePath_of_answer herr)⟩

/-! ### What an instruction does to the Store -/

/-- READREG of four bytes appends their read (R92). -/
theorem readReg_trace_of_got4 {s : State} {f : Frame} (ha : (answerRead s.env 0x41#8).1 = .got4 f) :
    (readReg s).2.trace = s.trace ++ [.read 0x41#8 4 (.got4 f)] := by
  rw [readReg_trace, ha]

/-- The operation from `s` to `t` failed and left the Store as it was. -/
structure FailedStoreKept (s t : State) : Prop where
  failed : t.st ≠ statusOk
  cw : t.cw = s.cw
  cwv : t.cwv = s.cwv

/-- An operation that raises a failure before it has written the Store leaves the Store (R140, R141). -/
theorem failedStoreKept_raiseFail {s u : State} (c : Cause) (hcw : u.cw = s.cw) (hcwv : u.cwv = s.cwv) :
    FailedStoreKept s (raiseFail c u) where
  failed := by cases c <;> simp [statusOf, statusOk]
  cw := hcw
  cwv := hcwv

/-- The operation from `s` to `t` succeeded, its last event read a frame, and it committed that frame's value. -/
structure CommittedRead (s t : State) : Prop where
  ok : t.st = statusOk
  cwv : t.cwv = true
  last_event : ∃ es f, t.trace = s.trace ++ es ++ [.read 0x41#8 4 (.got4 f)] ∧ t.cw = unbe32 f

/-- The operation from `s` to `t` succeeded, its one event wrote a frame, and it committed that frame's value. -/
structure CommittedWrite (s t : State) : Prop where
  ok : t.st = statusOk
  cwv : t.cwv = true
  event : t.trace = s.trace ++ [.write 0xA0#8 (be32 t.cw) .ok]

/-- The two ends of an operation with a read path (R93, R130, R132). -/
theorem exec_reader_ends {i : Instr} {s t : State} (h : exec i s = .next t)
    (hi : i = .rdcw ∨ i = .save ∨ i = .init) : FailedStoreKept s t ∨ CommittedRead s t := by
  obtain rfl | rfl | rfl := hi
  · obtain ⟨f, ha, -, rfl⟩ | ⟨c, rfl⟩ := execRdcw_cases h
    · exact .inr ⟨rfl, rfl, [], f, by simp [ha], rfl⟩
    · exact .inl (failedStoreKept_raiseFail _ rfl rfl)
  · obtain ⟨-, rfl⟩ | ⟨-, ⟨f, ha, -, rfl⟩ | ⟨c, rfl⟩⟩ := execSave_cases h
    · exact .inl (failedStoreKept_raiseFail _ rfl rfl)
    · exact .inr ⟨rfl, rfl, _, f, readReg_trace_of_got4 ha, rfl⟩
    · exact .inl (failedStoreKept_raiseFail _ rfl rfl)
  · obtain ⟨-, rfl⟩ | ⟨-, ⟨f, ha, -, rfl⟩ | ⟨c, rfl⟩⟩ := execInit_cases h
    · exact .inl (failedStoreKept_raiseFail _ rfl rfl)
    · have hfront : (readReg (busPing s).2).2.trace =
          s.trace ++ [.ping (answerPing s.env).1, .read 0x41#8 4 (answerRead (busPing s).2.env 0x41#8).1] := by
        simp
      exact .inr ⟨rfl, rfl, _, f, hfront ▸ readReg_trace_of_got4 ha, rfl⟩
    · exact .inl (failedStoreKept_raiseFail _ rfl rfl)

/-- The two ends of the write path (R94). -/
theorem writePath_ends (v : Word) (s : State) :
    FailedStoreKept s (writePath v s) ∨ CommittedWrite s (writePath v s) := by
  obtain ⟨ha, h⟩ | ⟨-, h⟩ := writePath_cases v s
  · exact h ▸ .inr ⟨rfl, rfl, by simp [ha]⟩
  · exact h ▸ .inl (failedStoreKept_raiseFail _ rfl rfl)

/-- The two ends of an operation with the write path; STEER's own registers are not the Store's (R94, R111). -/
theorem exec_writer_ends {i : Instr} {s t : State} (h : exec i s = .next t)
    (hi : (∃ v, i = .wrcw v) ∨ ∃ b pk ik, i = .steer b pk ik) : FailedStoreKept s t ∨ CommittedWrite s t := by
  obtain ⟨v, rfl⟩ | ⟨b, pk, ik, rfl⟩ := hi
  · cases h
    exact writePath_ends v s
  · obtain ⟨qb, qp, qi, -, -, -, -, rfl⟩ := execSteer_cases h
    obtain ⟨hfail, hcw, hcwv⟩ | ⟨hok, hcwv, hevent⟩ := writePath_ends
      (steerSteps Config.hw (seed s).maxchg (seed s).integ qb qp qi).w
      { seed s with integ := (steerSteps Config.hw (seed s).maxchg (seed s).integ qb qp qi).integ }
    · exact .inl ⟨hfail, hcw.trans (seed_cw s), hcwv.trans (seed_cwv s)⟩
    · exact .inr ⟨hok, hcwv, by rwa [seed_trace] at hevent⟩

/-- An instruction leaves the Store, or it succeeds and commits the frame it read last or the frame it wrote: R20's
writers of the Store are the operations with a read path and those with the write path (R95). -/
theorem exec_store_cases {i : Instr} {s t : State} (h : exec i s = .next t) :
    (t.cw = s.cw ∧ t.cwv = s.cwv) ∨ CommittedRead s t ∨ CommittedWrite s t := by
  by_cases hkept : t.cw = s.cw ∧ t.cwv = s.cwv
  · exact .inl hkept
  · obtain ⟨hwriters, -⟩ := registerWriters i s t h
    have hi : (i = .rdcw ∨ i = .save ∨ i = .init) ∨ (∃ v, i = .wrcw v) ∨ ∃ b pk ik, i = .steer b pk ik := by
      have := hwriters (not_and_or.1 hkept)
      tauto
    obtain hi | hi := hi
    · obtain hfail | hread := exec_reader_ends h hi
      · exact absurd ⟨hfail.cw, hfail.cwv⟩ hkept
      · exact .inr (.inl hread)
    · obtain hfail | hwrite := exec_writer_ends h hi
      · exact absurd ⟨hfail.cw, hfail.cwv⟩ hkept
      · exact .inr (.inr hwrite)

/-- Settles O25: both ways of changing the Store are successes whose last event was answered without error, and DEC,
ENC, GETCW, SETMAX and RSTI are none of its writers. -/
theorem storeChangesOnlyAfterSuccess : Obligations.StoreChangesOnlyAfterSuccess := by
  intro i s t h
  refine ⟨fun hfail => ?_, fun hi => ?_, fun hchanged => ?_⟩
  · obtain hkept | hread | hwrite := exec_store_cases h
    · exact hkept
    · exact absurd hread.ok hfail
    · exact absurd hwrite.ok hfail
  · obtain ⟨hwriters, -⟩ := registerWriters i s t h
    by_contra hne
    obtain ⟨x, rfl | rfl⟩ | rfl | ⟨x, rfl⟩ | rfl := hi <;> simpa using hwriters (not_and_or.1 hne)
  · obtain hkept | ⟨-, hcwv, es, f, htrace, -⟩ | ⟨-, hcwv, htrace⟩ := exec_store_cases h
    · exact absurd hkept (not_and_or.2 hchanged)
    · exact ⟨hcwv, _, _, htrace.trans (List.append_assoc ..), List.mem_concat_self, f, rfl⟩
    · exact ⟨hcwv, _, _, htrace, List.mem_singleton_self _, rfl⟩

/-- Settles O26: no instruction clears the validity flag, and a success of an operation with a read path or the write
path is its commit. -/
theorem cacheIsTheLastFrame : Obligations.CacheIsTheLastFrame := by
  intro i s t h
  refine ⟨exec_keeps_cwv h, fun hi hok => ?_, fun hi hok => ?_⟩
  · obtain hfail | ⟨-, hcwv, es, f, htrace, hcw⟩ := exec_reader_ends h hi
    · exact absurd hok hfail.failed
    · exact ⟨_, f, htrace, hcw, hcwv⟩
  · obtain hfail | hwrite := exec_writer_ends h hi
    · exact absurd hok hfail.failed
    · exact ⟨hwrite.event, hwrite.cwv⟩

end Sys2Proof.Machine
end

/-!
PROOFS. Steering: the arithmetic of a STEER in the terms of Safety (R104 to R110), the rate limit (R106, R117), SETMAX,
RSTI and the refusals of STEER (R100 to R102), then a STEER run from the answer of its write (R111, R112), on its own,
twice and `k` times in a row (R113 to R120).
-/

namespace Sys2Proof.Machine

/-! ### Clamping and rounding -/

/-- Above its upper bound `clamp` is that bound (R11). -/
theorem clamp_of_hi_le {α : Type} [LinearOrder α] {x lo hi : α} (h : hi ≤ x) : clamp x lo hi = hi :=
  min_eq_right (h.trans (le_max_left x lo))

/-- Below its lower bound `clamp` is that bound (R11). -/
theorem clamp_of_le_lo {α : Type} [LinearOrder α] {x lo hi : α} (h : x ≤ lo) (hb : lo ≤ hi) :
    clamp x lo hi = lo := by
  rw [clamp, max_eq_right h, min_eq_left hb]

/-- `clamp` does not move two values apart. -/
theorem abs_clamp_sub_clamp_le {α : Type} [AddCommGroup α] [LinearOrder α] [IsOrderedAddMonoid α] (x y lo hi : α) :
    |clamp x lo hi - clamp y lo hi| ≤ |x - y| := by
  refine (abs_min_sub_min_le_max _ _ _ _).trans ?_
  rw [sub_self, abs_zero, max_eq_left (abs_nonneg _)]
  exact abs_max_sub_max_le_abs x y lo

/-- From inside the bounds, one clamped step and then `k` more at once end where `k + 1` steps at once do: the steps
all have one direction, so a value held at a bound would stay beyond it. -/
theorem clamp_clamp_add_mul {x lo hi : Rat} (hlo : lo ≤ x) (hhi : x ≤ hi) (d : Rat) (k : Nat) :
    clamp (clamp (x + d) lo hi + k * d) lo hi = clamp (x + (k + 1 : Nat) * d) lo hi := by
  have hk : (0 : Rat) ≤ k := k.cast_nonneg
  have hsum : x + (k + 1 : Nat) * d = x + d + k * d := by push_cast; ring
  rw [hsum]
  obtain hd | hd := le_total 0 d
  · have hkd : 0 ≤ k * d := mul_nonneg hk hd
    obtain h | h := le_total (x + d) hi
    · rw [clamp_of_mem (by linarith) h]
    · rw [clamp_of_hi_le h, clamp_of_hi_le (by linarith), clamp_of_hi_le (by linarith)]
  · have hkd : k * d ≤ 0 := mul_nonpos_of_nonneg_of_nonpos hk hd
    have hb : lo ≤ hi := hlo.trans hhi
    obtain h | h := le_total lo (x + d)
    · rw [clamp_of_mem h (by linarith)]
    · rw [clamp_of_le_lo h hb, clamp_of_le_lo (by linarith) hb, clamp_of_le_lo (by linarith) hb]

/-- `round` commutes with the absolute value, being odd (R10). -/
theorem abs_roundTiesAway (q : Rat) : |roundTiesAway q| = roundTiesAway |q| := by
  have hnonneg {x : Rat} (hx : 0 ≤ x) : 0 ≤ roundTiesAway x := by
    rw [roundTiesAway_of_nonneg hx, round_eq]
    exact Int.floor_nonneg.2 (by linarith)
  obtain h | h := le_total 0 q
  · rw [abs_of_nonneg h, abs_of_nonneg (hnonneg h)]
  · rw [abs_of_nonpos h, roundTiesAway_neg, ← abs_neg, ← roundTiesAway_neg, abs_of_nonneg (hnonneg (by linarith))]

/-- `round` keeps the order of numbers that are not negative (R10). -/
theorem roundTiesAway_le_of_le {x y : Rat} (hx : 0 ≤ x) (h : x ≤ y) : roundTiesAway x ≤ roundTiesAway y := by
  rw [roundTiesAway_of_nonneg hx, roundTiesAway_of_nonneg (hx.trans h), round_eq, round_eq]
  exact Int.floor_mono (by linarith)

/-- Rounding moves two numbers apart by at most one half each (R10). -/
theorem abs_roundTiesAway_sub_le (x y : Rat) :
    |(roundTiesAway x : Rat) - roundTiesAway y| ≤ |x - y| + 1 := by
  obtain ⟨hx, -⟩ := nearestTiesAway_roundTiesAway x
  obtain ⟨hy, -⟩ := nearestTiesAway_roundTiesAway y
  calc |(roundTiesAway x : Rat) - roundTiesAway y|
      = |(x - y) + ((roundTiesAway x - x) - (roundTiesAway y - y))| := by congr 1; ring
    _ ≤ |x - y| + (|roundTiesAway x - x| + |roundTiesAway y - y|) :=
        (abs_add_le _ _).trans (add_le_add_right (abs_sub _ _) _)
    _ ≤ |x - y| + 1 := by linarith

/-! ### Saturation -/

/-- The saturated word, with the literal bounds (R110). -/
theorem saturateCW_hw (n : Int) : saturateCW Config.hw n = specWord n := rfl

/-- The saturated word as a number: no sum wraps (R110). -/
theorem specWord_toNat (n : Int) : ((specWord n).toNat : Int) = clamp n 0 1000000 := by
  simp only [specWord, clamp, BitVec.toNat_ofNat]
  omega

/-- Saturation does not move two words apart. -/
theorem abs_specWord_sub_le (m n : Int) :
    |((specWord m).toNat : Rat) - ((specWord n).toNat : Rat)| ≤ |(m : Rat) - n| := by
  have h := abs_clamp_sub_clamp_le m n 0 1000000
  rw [← specWord_toNat, ← specWord_toNat] at h
  exact_mod_cast h

/-- Settles O28: saturation is a clamp in the integers, which lands in 32 bits. -/
theorem oversizedSumsSaturate : Obligations.OversizedSumsSaturate := by
  intro n
  rw [saturateCW_hw]
  refine ⟨fun h => ?_, fun h => ?_, fun ⟨hlo, hhi⟩ => ?_⟩
  · rw [specWord, ← clamp, clamp_of_le_lo h.le (by norm_num)]
    rfl
  · rw [specWord, ← clamp, clamp_of_hi_le h.le]
    rfl
  · rw [specWord_toNat, clamp_of_mem hlo hhi]

/-! ### The arithmetic of a STEER, with the hardware's constants -/

theorem steerError_hw (b : Rat) : steerError Config.hw b = (0 - b) / 1000 := rfl

theorem steerRequired_hw (b : Rat) : steerRequired Config.hw b = -b * 1250000000 := by
  rw [steerRequired, steerError_hw, Config.hw_rnd, Config.hw_rnd, Config.hw_rLsb]
  ring

theorem steerLimit_hw (maxchg : Rat) : steerLimit Config.hw maxchg = maxchg * 1250 := by
  rw [steerLimit, Config.hw_rnd, Config.hw_rnd, Config.hw_rnd, Config.hw_rnd, Config.hw_ppb, Config.hw_rLsb]
  ring

theorem steerLimited_hw (maxchg b : Rat) : steerLimited Config.hw maxchg b = specLimited maxchg b := by
  rw [steerLimited, steerRequired_hw, steerLimit_hw]
  rfl

theorem steerP_hw (maxchg b pk : Rat) : steerP Config.hw maxchg b pk = specLimited maxchg b * pk := by
  rw [steerP, steerLimited_hw, Config.hw_rnd]

theorem steerDI_hw (maxchg b ik : Rat) : steerDI Config.hw maxchg b ik = specLimited maxchg b * ik := by
  rw [steerDI, steerLimited_hw, Config.hw_rnd]

/-- Settles O29: each step is the step's rule with the hardware's constants put in. -/
theorem referenceArithmeticOfSteer : Obligations.ReferenceArithmeticOfSteer := by
  intro maxchg integ b pk ik r
  have hreqc : r.reqc = specLimited maxchg b := steerLimited_hw maxchg b
  refine ⟨steerError_hw b, steerRequired_hw b, steerLimit_hw maxchg, hreqc, ?_, ?_, rfl, rfl, rfl⟩
  · rw [hreqc]
    exact steerP_hw maxchg b pk
  · rw [hreqc]
    exact steerDI_hw maxchg b ik

/-- Settles O30: the arithmetic is written with `rnd` at these places, for every configuration. -/
theorem roundingPlacements : Obligations.RoundingPlacements :=
  fun _ _ _ _ _ _ => ⟨rfl, rfl, rfl, rfl, rfl, rfl, rfl, rfl⟩

/-! ### The rate limit -/

/-- The rate-limited required change is within the rate limit (R106). -/
theorem abs_specLimited_le {maxchg : Rat} (h : 0 ≤ maxchg) (b : Rat) : |specLimited maxchg b| ≤ maxchg * 1250 :=
  abs_clamp_neg_le _ (by positivity)

/-- A term of the correction is within the rate limit times its gain (R117). -/
theorem abs_specLimited_mul_le {maxchg : Rat} (h : 0 ≤ maxchg) (b k : Rat) :
    |specLimited maxchg b * k| ≤ maxchg * 1250 * |k| := by
  rw [abs_mul]
  exact mul_le_mul_of_nonneg_right (abs_specLimited_le h b) (abs_nonneg k)

/-- A zero bias requires no change (R113). -/
theorem specLimited_zero_bias {maxchg : Rat} (h : 0 ≤ maxchg) : specLimited maxchg 0 = 0 := by
  have hm : 0 ≤ maxchg * 1250 := by positivity
  have hclamp := clamp_of_mem (x := (0 : Rat)) (by linarith : -(maxchg * 1250) ≤ 0) hm
  rwa [specLimited, neg_zero, zero_mul]

/-- A zero rate limit allows no change (R115). -/
theorem specLimited_zero_limit (b : Rat) : specLimited 0 b = 0 :=
  abs_nonpos_iff.1 ((abs_specLimited_le le_rfl b).trans_eq (zero_mul _))

/-- A bias below the set point requires a change upwards, and a rate limit above zero allows some (R104, R106). -/
theorem specLimited_pos {maxchg b : Rat} (hm : 0 < maxchg) (hb : b < 0) : 0 < specLimited maxchg b :=
  lt_min (lt_max_of_lt_left (by linarith)) (by positivity)

/-- A bias above the set point requires a change downwards, and a rate limit above zero allows some (R104, R106). -/
theorem specLimited_neg {maxchg b : Rat} (hm : 0 < maxchg) (hb : 0 < b) : specLimited maxchg b < 0 :=
  min_lt_of_left_lt (max_lt (by linarith) (by linarith))

/-- Settles O31: the clamp of R106 at and between its two bounds. -/
theorem rateLimitClampsTheRequiredChange : Obligations.RateLimitClampsTheRequiredChange := by
  intro maxchg integ b pk ik hx r
  have hreqc : r.reqc = clamp r.req (-r.m) r.m := rfl
  have hlimit : r.m = maxchg * 1250 := steerLimit_hw maxchg
  have hm : 0 ≤ r.m := by rw [hlimit]; positivity
  rw [hreqc]
  refine ⟨abs_clamp_neg_le _ hm, fun h => ?_, fun h => clamp_of_hi_le h.le,
    fun h => clamp_of_le_lo h.le (neg_le_self hm)⟩
  obtain ⟨hlo, hhi⟩ := abs_le.1 h
  exact clamp_of_mem hlo hhi

/-- Settles O32: the rate limit bounds both factors of a term, and `round` is odd and monotone. -/
theorem proportionalTermWithinRateLimit : Obligations.ProportionalTermWithinRateLimit := by
  intro maxchg integ b pk ik hx r
  have hp : r.p = specLimited maxchg b * pk := steerP_hw maxchg b pk
  have hdI : r.dI = specLimited maxchg b * ik := steerDI_hw maxchg b ik
  have hbound := abs_specLimited_mul_le hx b pk
  rw [hp, hdI, abs_roundTiesAway]
  exact ⟨hbound, abs_specLimited_mul_le hx b ik, roundTiesAway_le_of_le (abs_nonneg _) hbound⟩

/-! ### SETMAX, RSTI and the refusals of STEER -/

/-- SETMAX is its rule on the number its operand denotes (R100). -/
theorem exec_setmax_of_numOfBits {x : BitVec 64} {n : Option Rat} (s : State) (h : numOfBits x = n) :
    exec (.setmax x) s = setmaxNumber n s := by
  rw [exec, execSetmax, h]

/-- Settles O34: the operand denotes no number, a negative one, or one that is stored. -/
theorem setmaxStoresTheRateLimit : Obligations.SetmaxStoresTheRateLimit :=
  fun s _ => ⟨fun _ hx hq => (exec_setmax_of_numOfBits s hx).trans (if_neg (not_lt.2 hq)),
    fun _ hx hq => (exec_setmax_of_numOfBits s hx).trans (if_pos hq), fun hx => exec_setmax_of_numOfBits s hx⟩

/-- Settles O35: RSTI's register effect has the flag as its one condition. -/
theorem rstiClearsTheIntegratorFlag : Obligations.RstiClearsTheIntegratorFlag := by
  intro s
  refine ⟨fun h => ?_, fun h => ?_⟩
  · rw [exec, execRsti, unseed, if_pos h]
    rfl
  · rw [exec, execRsti, unseed, if_neg (Bool.eq_false_iff.1 h)]
    rfl

/-- A STEER that the flags forbid is refused by the name they give (R102). -/
theorem exec_steer_of_blocked {s : State} {r : Refusal} (b pk ik : BitVec 64) (h : steerBlocked s = some r) :
    exec (.steer b pk ik) s = .refused r := by
  simp only [exec, execSteer, steerNumbers, h]

/-- A STEER that is ready but has an operand that denotes no number is refused (R102). -/
theorem exec_steer_of_no_number {s : State} {b pk ik : BitVec 64} (hs : steerReady s)
    (h : numOfBits b = none ∨ numOfBits pk = none ∨ numOfBits ik = none) :
    exec (.steer b pk ik) s = .refused .operandNotANumber := by
  simp only [exec, execSteer, steerNumbers, (steerBlocked_none_iff s).2 hs]
  split
  next hb hp hi => simp [hb, hp, hi] at h
  next => rfl

/-- Settles O38: the flags are looked at first, in the order of R102. -/
theorem steerRefusals : Obligations.SteerRefusals := by
  refine fun s b pk ik => ⟨fun hm => exec_steer_of_blocked b pk ik ?_,
    fun hm hi hc => exec_steer_of_blocked b pk ik ?_, exec_steer_of_no_number⟩
  · rw [steerBlocked, if_pos hm]
  · rw [steerBlocked, if_neg (ne_false_of_eq_true hm), if_pos ⟨hi, hc⟩]

/-! ### The end of a write path, by its answer -/

@[simp] theorem finishWrite_maxchg (a : Ack) (w : Word) (s : State) : (finishWrite a w s).maxchg = s.maxchg := by
  cases a <;> rfl
@[simp] theorem finishWrite_maxv (a : Ack) (w : Word) (s : State) : (finishWrite a w s).maxv = s.maxv := by
  cases a <;> rfl
@[simp] theorem finishWrite_integ (a : Ack) (w : Word) (s : State) : (finishWrite a w s).integ = s.integ := by
  cases a <;> rfl
@[simp] theorem finishWrite_inti (a : Ack) (w : Word) (s : State) : (finishWrite a w s).inti = s.inti := by
  cases a <;> rfl
@[simp] theorem finishWrite_trace (a : Ack) (w : Word) (s : State) : (finishWrite a w s).trace = s.trace := by
  cases a <;> rfl

/-- The write path succeeds exactly when its write is accepted (R94). -/
@[simp] theorem finishWrite_st_eq_ok_iff (a : Ack) (w : Word) (s : State) :
    (finishWrite a w s).st = statusOk ↔ a = .ok := by
  cases a with
  | ok => exact iff_of_true rfl rfl
  | err => exact iff_of_false (by simp [finishWrite, statusOf, statusOk]) (by simp)

/-! ### A STEER, run from the answer of its write -/

/-- The integrator after step 0 (R103). -/
theorem seed_integ_eq_specSeed (s : State) : (seed s).integ = specSeed s := seed_integ s

/-- A seeded integrator is the one the next call starts from (R103). -/
theorem specSeed_of_seeded {s : State} (h : s.inti = true) : specSeed s = s.integ := if_pos h

/-- An unseeded integrator is seeded with the cache (R103). -/
theorem specSeed_of_unseeded {s : State} (h : s.inti = false) : specSeed s = s.cw.toNat :=
  if_neg (Bool.eq_false_iff.1 h)

/-- The seeded state with an advanced integrator, as an update of the state before (R103, R108). -/
theorem seed_with_integ (s : State) (q : Rat) :
    ({ seed s with integ := q } : State) = { s with integ := q, inti := true } := by
  unfold seed
  split
  next h => rw [← h]
  next => rfl

/-- The integrator after step 6, from the one the call starts from (R108). -/
theorem steerInteg_hw (s : State) (b ik : Rat) :
    steerInteg Config.hw s.maxchg (specSeed s) b ik = specInteg s b ik := by
  rw [steerInteg, steerDI_hw]
  rfl

/-- The word of step 7, from the integrator the call starts from (R109, R110). -/
theorem steerSteps_hw_w (s : State) (b pk ik : Rat) :
    (steerSteps Config.hw s.maxchg (specSeed s) b pk ik).w = specSteerWord s b pk ik := by
  rw [steerSteps, steerSum, steerP_hw, steerInteg_hw]
  rfl

/-- The word a STEER writes is a legal control word, so the write path's clamp leaves it (R110, R111). -/
theorem clampCW_specSteerWord (s : State) (b pk ik : Rat) :
    clampCW (specSteerWord s b pk ik) = specSteerWord s b pk ik :=
  clampCW_of_le _ (saturateCW_le _)

/-- STEER's run is the write path on the reference word, from the advanced integrator (R103 to R111). -/
theorem steerRun_hw (s : State) (b pk ik : Rat) :
    steerRun Config.hw b pk ik s =
      writePath (specSteerWord s b pk ik) { s with integ := specInteg s b ik, inti := true } := by
  rw [steerRun, seed_with_integ, seed_maxchg, seed_integ_eq_specSeed, steerSteps_hw_w]
  exact congrArg (fun q => writePath _ { s with integ := q, inti := true }) (steerInteg_hw s b ik)

/-- The integrator after step 6 is within its bounds (R25, R108). -/
theorem specInteg_mem (s : State) (b ik : Rat) : 0 ≤ specInteg s b ik ∧ specInteg s b ik ≤ 1000000 :=
  ⟨le_clamp _ (by norm_num), clamp_le _ _ _⟩

/-- The integrator a call starts from is within its bounds: it is one, or a cached control word (R21, R25). -/
theorem specSeed_mem {s : State} (h : s.Inv) (hs : steerReady s) : 0 ≤ specSeed s ∧ specSeed s ≤ 1000000 := by
  obtain ⟨-, hsource⟩ := hs
  cases hi : s.inti with
  | true =>
    rw [specSeed_of_seeded hi]
    exact h.integ_range hi
  | false =>
    have hc : s.cwv = true := hsource.resolve_left (Bool.eq_false_iff.1 hi)
    rw [specSeed_of_unseeded hi]
    exact ⟨Nat.cast_nonneg _, mod_cast h.cw_le hc⟩

/-- What a STEER leaves when its write of the reference word is answered `a` and the environment is `e` after it. -/
def steerEnd (s : State) (b pk ik : Rat) (a : Ack) (e : Environment) : State :=
  finishWrite a (specSteerWord s b pk ik)
    { s with
      integ := specInteg s b ik
      inti := true
      env := e
      trace := s.trace ++ [.write 0xA0#8 (be32 (specSteerWord s b pk ik)) a] }

section
variable {s t : State} {b pk ik : BitVec 64} {qb qp qi : Rat} {a : Ack} {e : Environment}

@[simp] theorem steerEnd_maxchg : (steerEnd s qb qp qi a e).maxchg = s.maxchg := finishWrite_maxchg ..
@[simp] theorem steerEnd_maxv : (steerEnd s qb qp qi a e).maxv = s.maxv := finishWrite_maxv ..
@[simp] theorem steerEnd_integ : (steerEnd s qb qp qi a e).integ = specInteg s qb qi := finishWrite_integ ..
@[simp] theorem steerEnd_inti : (steerEnd s qb qp qi a e).inti = true := finishWrite_inti ..
@[simp] theorem steerEnd_trace : (steerEnd s qb qp qi a e).trace =
    s.trace ++ [.write 0xA0#8 (be32 (specSteerWord s qb qp qi)) a] := finishWrite_trace ..
@[simp] theorem steerEnd_st_eq_ok_iff : (steerEnd s qb qp qi a e).st = statusOk ↔ a = .ok :=
  finishWrite_st_eq_ok_iff ..
@[simp] theorem steerEnd_ok_cw : (steerEnd s qb qp qi .ok e).cw = specSteerWord s qb qp qi := rfl

/-- The next call starts from the integrator a STEER leaves (R103, R112). -/
theorem specSeed_steerEnd : specSeed (steerEnd s qb qp qi a e) = specInteg s qb qi :=
  (specSeed_of_seeded steerEnd_inti).trans steerEnd_integ

/-- A STEER that is ready and has three numbers, run from the answer of its write (R102 to R112). -/
theorem exec_steer_of_answer (hs : steerReady s) (hb : numOfBits b = some qb) (hp : numOfBits pk = some qp)
    (hi : numOfBits ik = some qi)
    (ha : answerWrite s.env 0xA0#8 (be32 (specSteerWord s qb qp qi)) = (a, e)) :
    exec (.steer b pk ik) s = .next (steerEnd s qb qp qi a e) := by
  rw [← clampCW_specSteerWord] at ha
  rw [exec, execSteer, hb, hp, hi, steerNumbers_ready hs, steerRun_hw,
    writePath_of_answer (s := { s with integ := specInteg s qb qi, inti := true }) ha, clampCW_specSteerWord]
  rfl

/-- A STEER that is ready and has three numbers runs, whatever its write is answered (R102). -/
theorem exists_exec_steer (hs : steerReady s) (hb : numOfBits b = some qb) (hp : numOfBits pk = some qp)
    (hi : numOfBits ik = some qi) : ∃ a e, exec (.steer b pk ik) s = .next (steerEnd s qb qp qi a e) :=
  ⟨_, _, exec_steer_of_answer hs hb hp hi rfl⟩

/-- A STEER that answers a next state was ready and had three numbers; its end is chosen by its write's answer. -/
theorem execSteer_end (h : exec (.steer b pk ik) s = .next t) :
    ∃ qb qp qi a e, numOfBits b = some qb ∧ numOfBits pk = some qp ∧ numOfBits ik = some qi ∧ steerReady s ∧
      answerWrite s.env 0xA0#8 (be32 (specSteerWord s qb qp qi)) = (a, e) ∧ t = steerEnd s qb qp qi a e := by
  obtain ⟨qb, qp, qi, hb, hp, hi, hs, -⟩ := execSteer_cases h
  exact ⟨qb, qp, qi, _, _, hb, hp, hi, hs, rfl,
    Host.Outcome.next.inj (h.symm.trans (exec_steer_of_answer hs hb hp hi rfl))⟩

/-- The end of a STEER whose operands are known. -/
theorem execSteer_end_of_numbers (h : exec (.steer b pk ik) s = .next t) (hb : numOfBits b = some qb)
    (hp : numOfBits pk = some qp) (hi : numOfBits ik = some qi) :
    steerReady s ∧ ∃ a e, t = steerEnd s qb qp qi a e := by
  obtain ⟨qb', qp', qi', a, e, hb', hp', hi', hs, -, rfl⟩ := execSteer_end h
  obtain rfl := Option.some.inj (hb.symm.trans hb')
  obtain rfl := Option.some.inj (hp.symm.trans hp')
  obtain rfl := Option.some.inj (hi.symm.trans hi')
  exact ⟨hs, a, e, rfl⟩

end

/-- Settles O36: an accepted write ends STEER with the commit of the reference word. -/
theorem steerCommitsTheNewWord : Obligations.SteerCommitsTheNewWord := by
  rintro s b pk ik qb qp qi w e hs hb hp hi rfl ha
  exact exec_steer_of_answer hs hb hp hi ha

/-- Settles O37: a refused write ends STEER with a failure, after the integrator was advanced. -/
theorem steerFailureKeepsTheIntegrator : Obligations.SteerFailureKeepsTheIntegrator := by
  rintro s b pk ik qb qp qi w e hs hb hp hi rfl ha
  exact exec_steer_of_answer hs hb hp hi ha

/-! ### A STEER without a correction -/

/-- A correction of zero leaves an integrator that is within its bounds (R108). -/
theorem specInteg_of_no_step {s : State} {b ik : Rat} (hseed : 0 ≤ specSeed s ∧ specSeed s ≤ 1000000)
    (h : specLimited s.maxchg b * ik = 0) : specInteg s b ik = specSeed s := by
  rw [specInteg, h, add_zero]
  exact clamp_of_mem hseed.1 hseed.2

/-- Settles O39: in each of the three cases both terms of the correction are zero. -/
theorem noCorrectionHoldsTheIntegrator : Obligations.NoCorrectionHoldsTheIntegrator := by
  intro s b pk ik qb qp qi hinv hs hb hp hi hzero
  have hterms : specLimited s.maxchg qb * qp = 0 ∧ specLimited s.maxchg qb * qi = 0 := by
    obtain rfl | ⟨rfl, rfl⟩ | hm := hzero
    · simp [specLimited_zero_bias (hinv.maxchg_nonneg hs.1)]
    · simp
    · simp [hm, specLimited_zero_limit]
  obtain ⟨hP, hdI⟩ := hterms
  have hinteg : specInteg s qb qi = specSeed s := specInteg_of_no_step (specSeed_mem hinv hs) hdI
  have hword : specSteerWord s qb qp qi = specWord (roundTiesAway (specSeed s)) := by
    rw [specSteerWord, hP, zero_add, hinteg]
  obtain ⟨a, e, h⟩ := exists_exec_steer hs hb hp hi
  refine ⟨_, a, h, steerEnd_integ.trans hinteg, steerEnd_inti, hword ▸ steerEnd_trace, ?_⟩
  rintro rfl
  exact hword

/-! ### What a STEER depends on -/

/-- The cache gives the integrator a call starts from only when the call seeds (R103, R120). -/
theorem specSeed_congr {s s' : State} (hinti : s.inti = s'.inti) (hinteg : s.inti = true → s.integ = s'.integ)
    (hcw : s.inti = false → s.cw = s'.cw) : specSeed s = specSeed s' := by
  cases hflag : s.inti with
  | true => rw [specSeed_of_seeded hflag, specSeed_of_seeded (hinti ▸ hflag), hinteg hflag]
  | false => rw [specSeed_of_unseeded hflag, specSeed_of_unseeded (hinti ▸ hflag), hcw hflag]

/-- The cache's flag decides whether a STEER is ready only when the call seeds (R102, R120). -/
theorem steerReady_congr {s s' : State} (hmaxv : s.maxv = s'.maxv) (hinti : s.inti = s'.inti)
    (hcwv : s.inti = false → s.cwv = s'.cwv) : steerReady s ↔ steerReady s' := by
  rw [steerReady, steerReady, ← hmaxv, ← hinti]
  cases hflag : s.inti with
  | true => simp
  | false => rw [hcwv hflag]

/-- Settles O40: the two states have the same integrator to start from, hence the same word to write, and the same
answer chooses the same end. -/
theorem steerDependsOnNothingElse : Obligations.SteerDependsOnNothingElse := by
  intro s s' t b pk ik hmaxchg hmaxv hinti hinteg hcache hanswer h
  obtain ⟨qb, qp, qi, a, e, hb, hp, hi, hs, ha, rfl⟩ := execSteer_end h
  have hs' : steerReady s' := (steerReady_congr hmaxv hinti fun hflag => (hcache hflag).2).1 hs
  have hseed : specSeed s = specSeed s' := specSeed_congr hinti hinteg fun hflag => (hcache hflag).1
  have hI : specInteg s' qb qi = specInteg s qb qi := by rw [specInteg, specInteg, hseed, hmaxchg]
  have hW : specSteerWord s' qb qp qi = specSteerWord s qb qp qi := by
    rw [specSteerWord, specSteerWord, hI, hmaxchg]
  have ha' : answerWrite s'.env 0xA0#8 (be32 (specSteerWord s' qb qp qi)) =
      (a, (answerWrite s'.env 0xA0#8 (be32 (specSteerWord s' qb qp qi))).2) :=
    Prod.ext (by rw [hW, ← hanswer, ha]) rfl
  refine ⟨_, _, exec_steer_of_answer hs' hb hp hi ha', ?_, by simp [hI], by simp, fun hok => ?_, steerEnd_trace,
    by rw [steerEnd_trace, hW]⟩
  · cases a <;> rfl
  · obtain rfl := steerEnd_st_eq_ok_iff.1 hok
    exact ⟨hW, hW⟩

/-! ### Runs of STEER -/

/-- `k` equal calls all run, whatever their writes are answered, and add `k` integral steps up to the bounds (R118). -/
theorem execTimes_steer {b pk ik : BitVec 64} {qb qp qi : Rat} (hb : numOfBits b = some qb)
    (hp : numOfBits pk = some qp) (hi : numOfBits ik = some qi) (k : Nat) {s : State} (hinv : s.Inv)
    (hs : steerReady s) :
    ∃ t, execTimes k (.steer b pk ik) s = .next t ∧
      specSeed t = clamp (specSeed s + k * (specLimited s.maxchg qb * qi)) 0 1000000 := by
  induction k generalizing s with
  | zero =>
    obtain ⟨hlo, hhi⟩ := specSeed_mem hinv hs
    refine ⟨s, rfl, ?_⟩
    rw [Nat.cast_zero, zero_mul, add_zero, clamp_of_mem hlo hhi]
  | succ k ih =>
    obtain ⟨a, e, h⟩ := exists_exec_steer hs hb hp hi
    obtain ⟨t, hrun, hend⟩ := ih (hinv.after_exec h) ⟨steerEnd_maxv.trans hs.1, .inl steerEnd_inti⟩
    obtain ⟨hlo, hhi⟩ := specSeed_mem hinv hs
    refine ⟨t, by rw [execTimes, h]; exact hrun, ?_⟩
    rw [hend, specSeed_steerEnd, steerEnd_maxchg]
    exact clamp_clamp_add_mul hlo hhi _ k

/-- Settles O41: induction on the calls, and the sign of the limited change. -/
theorem integratorRunIsMonotone : Obligations.IntegratorRunIsMonotone := by
  intro k s b pk ik qb qp qi hinv hs hb hp hi
  exact ⟨execTimes_steer hb hp hi k hinv hs, fun hm hq => ⟨fun hneg => mul_pos (specLimited_pos hm hneg) hq,
    fun hpos => mul_neg_of_neg_of_pos (specLimited_neg hm hpos) hq⟩⟩

/-- Settles O42: without saturation the clamps of R108 and R110 change nothing, and `round` is within one half. -/
theorem seedingCallMovesByTheCorrection : Obligations.SeedingCallMovesByTheCorrection := by
  intro s t b pk ik qb qp qi hinv hunseeded hb hp hi h hok hI0 hI1 hn0 hn1
  obtain ⟨hs, a, e, rfl⟩ := execSteer_end_of_numbers h hb hp hi
  obtain rfl := steerEnd_st_eq_ok_iff.1 hok
  have hinteg : specInteg s qb qi = s.cw.toNat + specLimited s.maxchg qb * qi := by
    rw [specInteg, specSeed_of_unseeded hunseeded]
    exact clamp_of_mem hI0 hI1
  have hsum : specLimited s.maxchg qb * qp + specInteg s qb qi =
      s.cw.toNat + specLimited s.maxchg qb * (qp + qi) := by rw [hinteg]; ring
  have hword : ((steerEnd s qb qp qi .ok e).cw.toNat : Int) =
      roundTiesAway (s.cw.toNat + specLimited s.maxchg qb * (qp + qi)) := by
    rw [steerEnd_ok_cw, specSteerWord, hsum, specWord_toNat, clamp_of_mem hn0 hn1]
  refine ⟨hword, ?_⟩
  have hcast : ((steerEnd s qb qp qi .ok e).cw.toNat : Rat) =
      roundTiesAway (s.cw.toNat + specLimited s.maxchg qb * (qp + qi)) := mod_cast hword
  obtain ⟨hnear, -⟩ := nearestTiesAway_roundTiesAway (s.cw.toNat + specLimited s.maxchg qb * (qp + qi))
  have hcorrection := abs_specLimited_mul_le (hinv.maxchg_nonneg hs.1) qb (qp + qi)
  rw [hcast]
  rw [abs_le] at hnear hcorrection ⊢
  constructor <;> linarith

/-- One call moves the integrator by at most its integral step (R108). -/
theorem abs_specInteg_sub_le {s : State} (hseed : 0 ≤ specSeed s ∧ specSeed s ≤ 1000000) (b ik : Rat) :
    |specInteg s b ik - specSeed s| ≤ |specLimited s.maxchg b * ik| := by
  have h := abs_clamp_sub_clamp_le (specSeed s + specLimited s.maxchg b * ik) (specSeed s) 0 1000000
  rwa [clamp_of_mem hseed.1 hseed.2, add_sub_cancel_left] at h

/-- Settles O43: saturation does not move the words apart, rounding by one, the sums by the proportional terms and the
second integral step. -/
theorem successiveCallsMoveBound : Obligations.SuccessiveCallsMoveBound := by
  intro s t u b1 p1 i1 b2 p2 i2 qb1 qp1 qb2 qp2 qi2 hb1 hp1 hb2 hp2 hi2 h1 hok1 h2 hok2
  obtain ⟨-, -, qi1, -, -, -, -, hi1, -⟩ := execSteer_end h1
  obtain ⟨-, a1, e1, rfl⟩ := execSteer_end_of_numbers h1 hb1 hp1 hi1
  obtain rfl := steerEnd_st_eq_ok_iff.1 hok1
  obtain ⟨-, a2, e2, rfl⟩ := execSteer_end_of_numbers h2 hb2 hp2 hi2
  obtain rfl := steerEnd_st_eq_ok_iff.1 hok2
  have hseed : specSeed (steerEnd s qb1 qp1 qi1 .ok e1) = specInteg s qb1 qi1 := specSeed_steerEnd
  have hstep := abs_specInteg_sub_le (hseed ▸ specInteg_mem s qb1 qi1) qb2 qi2
  rw [hseed, steerEnd_maxchg] at hstep
  rw [steerEnd_ok_cw, steerEnd_ok_cw, specSteerWord, specSteerWord, steerEnd_maxchg]
  refine (abs_specWord_sub_le _ _).trans ((abs_roundTiesAway_sub_le _ _).trans ?_)
  gcongr
  rw [add_sub_add_comm]
  exact (abs_add_le _ _).trans (add_le_add ((abs_sub _ _).trans_eq (add_comm _ _)) hstep)

/-! ### A failure -/

/-- Settles O55: of the writers of the registers (R20) SETMAX and RSTI do not fail, and a failing operation leaves the
Store. -/
theorem failureLeavesTheRegisters : Obligations.FailureLeavesTheRegisters := by
  intro i s t _ h hfail
  obtain ⟨hcw, hcwv⟩ := (storeChangesOnlyAfterSuccess i s t h).1 hfail
  obtain ⟨-, hmax, hinteg, -⟩ := registerWriters i s t h
  have hlimit : t.maxchg = s.maxchg ∧ t.maxv = s.maxv := by
    by_contra hne
    obtain ⟨x, rfl⟩ := hmax (not_and_or.1 hne)
    obtain ⟨q, -, -, rfl⟩ := execSetmax_cases h
    exact hfail rfl
  refine ⟨hcw, hcwv, hlimit.1, hlimit.2, fun hi => ?_, ?_⟩
  · by_contra hne
    obtain ⟨b, pk, ik, rfl⟩ | rfl := hinteg (not_and_or.1 hne)
    · exact hi b pk ik rfl
    · exact hfail (execRsti_cases h ▸ rfl)
  · rintro b pk ik qb qi rfl hb hik
    obtain ⟨-, qp, -, -, -, -, hp, -⟩ := execSteer_end h
    obtain ⟨-, a, e, rfl⟩ := execSteer_end_of_numbers h hb hp hik
    exact ⟨steerEnd_integ, steerEnd_inti⟩

end Sys2Proof.Machine

/-!
PROOFS. Persist: the failures of INIT (R132, R143), then how often an instruction reads (R133).
-/

namespace Sys2Proof.Machine

/-! ### The failures of INIT -/

/-- An answer that is no failure is classified as a value (R92). -/
theorem classifyRead_of_no_readFailure {a : ReadAnswer} (h : readFailure a = none) :
    ∃ v, classifyRead a = .ok v := by
  cases a with
  | got4 f =>
    have hle : ¬1000000 < (unbe32 f).toNat := by simpa [readFailure] using h
    exact ⟨_, classifyRead_got4_of_le (not_lt.1 hle)⟩
  | err | got0 | got1 _ | got2 _ _ | got3 _ _ _ => exact absurd h (Option.some_ne_none _)

/-- INIT's last step raises the first read's failure, else the second's (R132, D12). -/
theorem finishInit_of_readFailure {a1 a2 : ReadAnswer} {c : Cause} (s : State)
    (h : readFailure a1 = some c ∨ (readFailure a1 = none ∧ readFailure a2 = some c)) :
    finishInit (classifyRead a1) (classifyRead a2) s = raiseFail c s := by
  obtain h1 | ⟨h1, h2⟩ := h
  · rw [classifyRead_of_readFailure h1, finishInit]
  · obtain ⟨v, hv⟩ := classifyRead_of_no_readFailure h1
    rw [hv, classifyRead_of_readFailure h2, finishInit]

/-- INIT is its ping event, then what the ping's answer asks for (R132). -/
theorem exec_init_of_answer {s : State} {a : Ack} {e : Environment} (h : answerPing s.env = (a, e)) :
    exec .init s = .next (initAfterPing a { s with env := e, trace := s.trace ++ [.ping a] }) := by
  rw [exec, execInit, busPing_of_answer h]

/-- Settles O48: a failed ping ends INIT; an answered one is followed by both reads, and the last step raises the first
failure. -/
theorem initFailures : Obligations.InitFailures := by
  refine fun s e1 => ⟨fun hping => exec_init_of_answer hping, fun a1 a2 e2 e3 c hping hread1 hread2 hc => ?_⟩
  rw [exec_init_of_ok_reads hping hread1 hread2, finishInit_of_readFailure _ hc]
  rfl

/-! ### How often an instruction reads -/

/-- A successful INIT has read twice and holds the value of the second frame (R132, R133). -/
theorem execInit_trace_of_ok {s t : State} (h : exec .init s = .next t) (hok : t.st = statusOk) :
    ∃ a f, t.trace = s.trace ++ [.ping .ok, .read 0x41#8 4 a, .read 0x41#8 4 (.got4 f)] ∧
      t.cw = unbe32 f := by
  obtain ⟨-, rfl⟩ | ⟨hping, ⟨f, hread, -, rfl⟩ | ⟨c, rfl⟩⟩ := execInit_cases h
  · exact absurd hok (failedStoreKept_raiseFail (s := s) _ rfl rfl).failed
  · have htrace : (readReg (readReg (busPing s).2).2).2.trace = s.trace ++
        [.ping .ok, .read 0x41#8 4 (answerRead (busPing s).2.env 0x41#8).1, .read 0x41#8 4 (.got4 f)] := by
      rw [readReg_trace_of_got4 hread]
      simp [hping]
    exact ⟨_, f, htrace, rfl⟩
  · exact absurd hok (failedStoreKept_raiseFail (s := s) _ rfl rfl).failed

/-- No instruction but INIT has two reads among its transactions (R63, R66). -/
theorem count_rdFc_transactionsOf_le {i : Instr} (hi : i ≠ .init) : (transactionsOf i).count .rdFc ≤ 1 := by
  cases i with
  | init => exact absurd rfl hi
  | dec _ | enc _ | getcw | rdcw | wrcw _ | steer _ _ _ | save | setmax _ | rsti | rdFc | wrDac _ | saveFc =>
    rw [transactionsOf]
    decide

/-- Settles O49: the events of INIT, RDCW and SAVE, and for the other instructions their transactions in order. -/
theorem onlyInitReadsTwice : Obligations.OnlyInitReadsTwice := by
  refine ⟨fun _ _ => execInit_trace_of_ok, fun _ _ => execRdcw_trace, fun _ _ => execSave_trace, ?_⟩
  intro i s t h hi
  obtain ⟨es, htrace, -, hes | ⟨-, rfl⟩ | ⟨rfl, -⟩⟩ := transactionsInOrder i s t h
  · exact ⟨es, htrace, hes ▸ count_rdFc_transactionsOf_le hi⟩
  · exact ⟨_, htrace, by decide⟩
  · exact absurd rfl hi

end Sys2Proof.Machine

/-!
PROOFS. Exceptions: how each host operation ends, by the status codes of R141 and the causes of R142.
-/

namespace Sys2Proof.Machine

/-- `t` is an end R142 allows the operation `i`: `Ok`, or the code of a cause in its row. -/
def AllowedEnd (i : Instr) (t : State) : Prop :=
  t.st = statusOk ∨ ∃ c, canRaise i c = true ∧ t.st = statusOf c

/-- Every operation may end `Ok`. -/
theorem allowedEnd_complete (i : Instr) (v : Word) (s : State) : AllowedEnd i (complete v s) :=
  .inl rfl

theorem allowedEnd_completeNoValue (i : Instr) (s : State) : AllowedEnd i (completeNoValue s) :=
  .inl rfl

/-- A failure is allowed where the operation's row of R142 has its cause. -/
theorem allowedEnd_raiseFail {i : Instr} {c : Cause} (hc : canRaise i c = true) (s : State) :
    AllowedEnd i (raiseFail c s) :=
  .inr ⟨c, hc, rfl⟩

/-- The write path fails with `BusUnavailable` only (R94, R142). -/
theorem allowedEnd_writePath {i : Instr} (hc : canRaise i .busUnavailable = true) (v : Word) (s : State) :
    AllowedEnd i (writePath v s) := by
  obtain ⟨-, h⟩ | ⟨-, h⟩ := writePath_cases v s
  · exact h ▸ allowedEnd_complete i _ _
  · exact h ▸ allowedEnd_raiseFail hc _

/-- Every host operation that answers ends as its row of R142 allows: the operations with a read path may fail with
every cause, those with the write path with one, DEC with one, and the others do not fail. -/
theorem exec_allowedEnd {i : Instr} {s t : State} (hi : isHostOp i = true) (h : exec i s = .next t) :
    AllowedEnd i t := by
  cases i with
  | dec image =>
    obtain ⟨v, -, rfl⟩ | rfl := execDec_cases h
    · exact allowedEnd_complete _ v s
    · exact allowedEnd_raiseFail rfl s
  | enc v => exact execEnc_cases h ▸ allowedEnd_complete _ _ s
  | getcw => exact (execGetcw_cases h).2 ▸ allowedEnd_complete _ _ s
  | rdcw =>
    obtain ⟨f, -, -, rfl⟩ | ⟨c, rfl⟩ := execRdcw_cases h
    · exact allowedEnd_complete ..
    · exact allowedEnd_raiseFail rfl _
  | wrcw v =>
    cases h
    exact allowedEnd_writePath rfl v s
  | steer b pk ik =>
    obtain ⟨qb, qp, qi, -, -, -, -, rfl⟩ := execSteer_cases h
    exact allowedEnd_writePath rfl _ _
  | save =>
    obtain ⟨-, rfl⟩ | ⟨-, ⟨f, -, -, rfl⟩ | ⟨c, rfl⟩⟩ := execSave_cases h
    · exact allowedEnd_raiseFail rfl _
    · exact allowedEnd_complete ..
    · exact allowedEnd_raiseFail rfl _
  | init =>
    obtain ⟨-, rfl⟩ | ⟨-, ⟨f, -, -, rfl⟩ | ⟨c, rfl⟩⟩ := execInit_cases h
    · exact allowedEnd_raiseFail rfl _
    · exact allowedEnd_completeNoValue ..
    · exact allowedEnd_raiseFail rfl _
  | setmax x =>
    obtain ⟨q, -, -, rfl⟩ := execSetmax_cases h
    exact allowedEnd_completeNoValue ..
  | rsti => exact execRsti_cases h ▸ allowedEnd_completeNoValue ..
  | rdFc | wrDac _ | saveFc => cases hi

/-- Settles O54: the codes by unfolding, and the end of each host operation by the row of R142 it stands in. -/
theorem statusCodesOfEachOperation : Obligations.StatusCodesOfEachOperation :=
  ⟨rfl, rfl, rfl, rfl, fun _ _ _ hi h => exec_allowedEnd hi h⟩

end Sys2Proof.Machine

/-!
PROOFS. The one write of every STEER, of a legal control word (R170).
-/

namespace Sys2Proof.Machine

/-- The reference word of a STEER is a legal control word, as it is a saturated one (R110). -/
theorem specSteerWord_le (s : State) (b pk ik : Rat) : (specSteerWord s b pk ik).toNat ≤ 1000000 :=
  saturateCW_le _

/-- Settles O44: a ready STEER ends as `steerEnd` whatever its write is answered, and that end's trace has the one
write of the reference word, with no case on the bias, the gains, the rate limit or the cached word. -/
theorem everySteerWritesOnce : Obligations.EverySteerWritesOnce := by
  intro s b pk ik qb qp qi hs hb hp hi
  obtain ⟨a, e, h⟩ := exists_exec_steer hs hb hp hi
  exact ⟨steerEnd s qb qp qi a e, specSteerWord s qb qp qi, a, h, steerEnd_trace, specSteerWord_le s qb qp qi⟩

end Sys2Proof.Machine
